-- ==== Sys2Proof/Word.lean ====
section
/-! DEFINITION. The word types of HIWEB-SHA256 (00_scope.md R6, R12): plain bit vectors. Their arithmetic is
Machine/Primitives.lean. -/

namespace Sys2Proof

/-- A word: an unsigned integer in `[0, 2^32)`, bit 0 its least significant bit (R12, R100). -/
abbrev Word := BitVec 32

/-- A byte: an unsigned integer in `[0, 256)`, the unit of the message (R6, R12). -/
abbrev Byte := BitVec 8

/-- The command word `cmd[11:0]` (R82). -/
abbrev CmdWord := BitVec 12

/-- The 32 bytes of a digest, byte 0 first (R29, R200). -/
abbrev Digest := Vector Byte 32

end Sys2Proof
end

