-- ==== Sys2Proof/Config.lean ====
section
/-! DEFINITION. The open parameters of 00_scope.md R7. A machine's own values of them stand in State, where no step
writes them, so that a statement about every state is a statement about every value the spec allows (log 5); here are
their types and the values of the reset state. The constant ROM, also configuration by R122, is Machine/ConstantRom.lean. -/

namespace Sys2Proof

/-- `RESET_POLICY` (R7, R218): the spec gives semantics for `required` only. -/
inductive ResetPolicy where
  | required
  | automatic
deriving DecidableEq, Repr

namespace Config

/-- `MAXLEN` of the reset state. DESIGN CHOICE (log 5, unsafe): the spec leaves the value open in
`0 <= MAXLEN <= 2^61 - 1`; this is the largest it admits. The bound itself is the type of the field. -/
def maxLen : Fin (2 ^ 61) := ⟨2 ^ 61 - 1, by decide⟩

/-- `RESET_POLICY` of the reset state: "This spec chooses `RESET_POLICY = required`" (R218). -/
def resetPolicy : ResetPolicy := .required

end Config

end Sys2Proof
end

