-- ==== Sys2Proof/Syntax.lean ====
section
/-! DEFINITION. The command set (30_encoding.md R80), the pseudo-instructions (R88), one line of assembler source
(R87) and the elements a host turns into message bytes (47_engine.md R216), as syntax. -/

namespace Sys2Proof

/-- The eight host-issuable commands (R80), one constructor per row of the opcode table. -/
inductive Instr where
  /-- Back to `Created`, everything cleared (R211). -/
  | reset
  /-- Append the byte `imm8` to the message (R212). -/
  | append (imm8 : Byte)
  /-- `H <- IV` (R131). -/
  | init
  /-- Pad the message in place (R142). -/
  | pad
  /-- Schedule of block `BLK` (R164). -/
  | expand
  /-- Fold the block into `H` (R178). -/
  | compress
  /-- Serialise `H` into `DIGEST` (R201). -/
  | finalize
  /-- The whole pipeline (R213). -/
  | hash
deriving DecidableEq, Repr

/-- The names of the commands, without operands (R80, R87). -/
inductive Mnemonic where
  | RESET | APPEND | INIT | PAD | EXPAND | COMPRESS | FINALIZE | HASH
deriving DecidableEq, Repr

/-- A command's name. -/
def Instr.mnemonic : Instr → Mnemonic
  | .reset => .RESET
  | .append _ => .APPEND
  | .init => .INIT
  | .pad => .PAD
  | .expand => .EXPAND
  | .compress => .COMPRESS
  | .finalize => .FINALIZE
  | .hash => .HASH

/-- A line of assembler source as written, before any check (R87): a mnemonic and perhaps a number. -/
structure SourceLine where
  mnemonic : Mnemonic
  operand : Option Nat
deriving DecidableEq, Repr

/-- The pseudo-instructions (R88). A text is the list of its characters' codes. -/
inductive Pseudo where
  | load (bytes : List Byte)
  | loads (text : List Nat)
  | hashmsg (bytes : List Byte)
  | block
deriving DecidableEq, Repr

/-- An element of the generic-sequence contract (R216): an unsigned or signed 8-bit integer, or a character given by
its 8-bit code unit. -/
inductive Element where
  | unsigned (u : Nat)
  | signed (s : Int)
  | character (code : Nat)
deriving DecidableEq, Repr

end Sys2Proof
end

