-- ==== Sys2Proof/WellFormed.lean ====
section
/-! DEFINITION. The checks on syntax. A command is well-formed by its type (its one operand is a byte); a source line,
a pseudo-instruction and a generic element each have a range the spec states. -/

namespace Sys2Proof

/-- R83: APPEND's operand is any byte, no other command has an operand; the types of `Instr` say so. -/
def Instr.wellFormed : Instr → Bool
  | .reset => true
  | .append _ => true
  | .init => true
  | .pad => true
  | .expand => true
  | .compress => true
  | .finalize => true
  | .hash => true

/-- R87: `APPEND` takes one number in `0 .. 255`; no other command takes an operand. -/
def SourceLine.wellFormed (l : SourceLine) : Bool :=
  match l.mnemonic, l.operand with
  | .APPEND, some n => decide (n ≤ 255)
  | .APPEND, none => false
  | _, some _ => false
  | _, none => true

/-- R88: the characters of `LOADS` lie in `0x20 .. 0x7E`. -/
def Pseudo.wellFormed : Pseudo → Bool
  | .load _ => true
  | .loads text => text.all fun c => decide (0x20 ≤ c) && decide (c ≤ 0x7E)
  | .hashmsg _ => true
  | .block => true

/-- R216: an unsigned element lies in `[0, 255]`, a signed one in `[-128, 127]`, a character has an 8-bit code. -/
def Element.wellFormed : Element → Bool
  | .unsigned u => decide (u ≤ 255)
  | .signed s => decide (-128 ≤ s) && decide (s ≤ 127)
  | .character code => decide (code ≤ 255)

end Sys2Proof
end

