-- ==== Sys2Proof/Decode.lean ====
section
/-! DEFINITION. Decoding and encoding of the command word (30_encoding.md R82 to R85). -/

namespace Sys2Proof

/-- Why a command word is reserved (R85). -/
inductive ReservedWord where
  /-- `op` is `0x0` or `0x9 .. 0xF`. -/
  | opcode (op : BitVec 4)
  /-- A format Z opcode with `imm8 != 0`. -/
  | operand (op : BitVec 4) (imm8 : Byte)
deriving DecidableEq, Repr

/-- What a command word stands for: a command, or a reserved word with the reason. -/
inductive Decoded where
  | ok (i : Instr)
  | reserved (why : ReservedWord)
deriving DecidableEq, Repr

/-- The field `op = cmd[11:8]` (R82). -/
def opField (w : CmdWord) : BitVec 4 := w.extractLsb' 8 4

/-- The field `imm8 = cmd[7:0]` (R82). -/
def immField (w : CmdWord) : Byte := w.extractLsb' 0 8

/-- Format Z: the operand field "must be `0x00`" (R82). -/
def formatZ (op : BitVec 4) (imm8 : Byte) (i : Instr) : Decoded :=
  if imm8 = 0 then .ok i else .reserved (.operand op imm8)

/-- The opcode map (R84), total over the 4096 words. -/
def decode (w : CmdWord) : Decoded :=
  match opField w with
  | 0x1#4 => formatZ 0x1#4 (immField w) .reset
  | 0x2#4 => .ok (.append (immField w))
  | 0x3#4 => formatZ 0x3#4 (immField w) .init
  | 0x4#4 => formatZ 0x4#4 (immField w) .pad
  | 0x5#4 => formatZ 0x5#4 (immField w) .expand
  | 0x6#4 => formatZ 0x6#4 (immField w) .compress
  | 0x7#4 => formatZ 0x7#4 (immField w) .finalize
  | 0x8#4 => formatZ 0x8#4 (immField w) .hash
  | op => .reserved (.opcode op)

/-- The opcode of a command (R84). -/
def opcode : Instr → BitVec 4
  | .reset => 0x1
  | .append _ => 0x2
  | .init => 0x3
  | .pad => 0x4
  | .expand => 0x5
  | .compress => 0x6
  | .finalize => 0x7
  | .hash => 0x8

/-- The operand field of a command: the message byte for APPEND, else `0x00` (R82, R83). -/
def operandByte : Instr → Byte
  | .append imm8 => imm8
  | .reset => 0
  | .init => 0
  | .pad => 0
  | .expand => 0
  | .compress => 0
  | .finalize => 0
  | .hash => 0

/-- The command word of a command: `op ++ imm8` (R82). -/
def encode (i : Instr) : CmdWord := opcode i ++ operandByte i

/-- A row of the opcode map (R84): a word `w` is the command of the row when `w and mask = match`. -/
structure OpcodeRow where
  mnemonic : Mnemonic
  pattern : CmdWord
  mask : CmdWord
deriving DecidableEq, Repr

/-- The table of R84, as it is printed there. -/
def opcodeTable : List OpcodeRow :=
  [⟨.RESET, 0x100, 0xFFF⟩, ⟨.APPEND, 0x200, 0xF00⟩, ⟨.INIT, 0x300, 0xFFF⟩, ⟨.PAD, 0x400, 0xFFF⟩,
   ⟨.EXPAND, 0x500, 0xFFF⟩, ⟨.COMPRESS, 0x600, 0xFFF⟩, ⟨.FINALIZE, 0x700, 0xFFF⟩, ⟨.HASH, 0x800, 0xFFF⟩]

/-- `w and mask = match` (R84). -/
def OpcodeRow.covers (r : OpcodeRow) (w : CmdWord) : Bool := w &&& r.mask == r.pattern

/-- The bits of a table word that the command port carries, if they are a command word at all: bits above bit 11
must be zero (log 12). -/
def tableWord (nbits w : Nat) : Option CmdWord :=
  let v := w % 2 ^ nbits
  if v < 2 ^ 12 then some (BitVec.ofNat 12 v) else none

/-- The instruction the decoder reads from the low `nbits` bits of `w`. -/
def decodeTableWord (nbits w : Nat) : Option Instr :=
  match tableWord nbits w with
  | none => none
  | some c =>
    match decode c with
    | .ok i => some i
    | .reserved _ => none

end Sys2Proof
end

