-- ==== Sys2Proof/Machine/State.lean ====
section
/-! DEFINITION. The state of one engine (10_state.md R20), the parameters it is built with (00_scope.md R7), and the
model's own picture of the host at its ports (R11); the reasons a step stops. Plain data throughout. -/

namespace Sys2Proof.Machine

/-- `PHASE` (R24). Five values: the codes 5, 6, 7 are "unreachable; no rule writes them" (U12; log 10). -/
inductive Phase where
  /-- 0: the message buffer may be filled; nothing computed. -/
  | Created
  /-- 1: `H` holds the IV; padding may run. -/
  | Initialized
  /-- 2: `W` holds the schedule of block `BLK`. -/
  | Expanded
  /-- 3: block `BLK - 1` has been folded into `H`. -/
  | Compressed
  /-- 4: `DIGEST` valid. -/
  | Finalized
deriving DecidableEq, Repr

/-- The working variables `a .. h` (R27). -/
structure Vars where
  a : Word
  b : Word
  c : Word
  d : Word
  e : Word
  f : Word
  g : Word
  h : Word
deriving DecidableEq, Repr

/-- Memory: cells of address and byte, addresses strictly rising; an address that is not listed holds no byte (log 7). -/
abbrev Memory := List Host.Cell

/-- What the host does at the block's ports (R11), one event of `State.port`. -/
inductive HostInput where
  /-- It issues a command word (R82, R86). -/
  | command (w : CmdWord)
  /-- It asserts hardware reset (R270); `running` is the command the reset overtakes, if one is running (log 9). -/
  | hardReset (running : Option CmdWord)
  /-- It reads the digest port (R56). -/
  | readDigest
deriving DecidableEq, Repr

/-- The registers and derived values that can be `undefined` (R21, R33). -/
inductive Reg where
  | H | vars | W | DIGEST | NBLK
deriving DecidableEq, Repr

/-- Faults of the model, not of the hardware, which raises none (R240). No state that meets the invariant of
Safety.lean reaches one. -/
inductive Fault where
  /-- A read of a register that is `undefined`: "an attempt to read an undefined register is a fault of the model"
  (R21). Raised by LOADVARS, ROUND, ADDBLOCK, FINALIZE, HASH and the digest port. Safe. -/
  | undefinedRead (r : Reg)
  /-- `MemRead(addr, n)` outside `n in {1, 4}`, `addr + n <= LEN` (R53). Raised by EXPAND and HASH. Safe (log 8). -/
  | readDomain (addr n : Nat)
  /-- A listed length that is longer than the bytes held: the byte at `addr` is not there. Raised by EXPAND and HASH.
  Safe (log 8). -/
  | missingByte (addr : Nat)
  /-- `MemWrite(addr, n, v)` outside `n in {1, 8}`, `addr = LEN`, `v < 256^n` (R54). Raised by APPEND, PAD and HASH.
  Safe (log 8). -/
  | writeDomain (addr n v : Nat)
deriving DecidableEq, Repr

/-- Refusals: "the spec gives the command no meaning in this state; the model has no step" (R13, R242). -/
inductive Refusal where
  /-- The command word is reserved (R85). Raised by step. Safe. -/
  | reservedEncoding
  /-- The command is not legal in the current phase (R219). Raised by every command but RESET. Safe. -/
  | outOfSequence
  /-- APPEND when `LEN = MAXLEN` (R243). Safe. -/
  | capacity
  /-- The host reads `DIGEST` when `PHASE != Finalized` (R56). Raised by the digest port. Safe. -/
  | digestNotValid
  /-- A command other than RESET in `Finalized` under `RESET_POLICY = automatic`, which "is not given semantics"
  (R218, U1). Raised by every command but RESET. Safe (log 6). -/
  | resetPolicyUnspecified
  /-- An instruction without a meaning in this model; none is left. Safe. -/
  | notModelled (mnemonic : String)
deriving DecidableEq, Repr

/-- The state. `none` in `H`, `vars`, `W`, `DIGEST` is the spec's `undefined`: no value (R21; log 1). -/
structure State where
  /-- The digest state register file `H[0..7]` (R22). -/
  H : Option (Vector Word 8)
  /-- The working variables `a .. h` (R27). -/
  vars : Option Vars
  /-- The schedule words `W[0..63]` (R28). -/
  W : Option (Vector Word 64)
  /-- The message buffer (R30). -/
  MSG : Memory
  /-- The number of bytes in `MSG` (R31). -/
  LEN : Nat
  /-- The sequencer's phase (R24). -/
  PHASE : Phase
  /-- Whether `MSG` has been padded (R32). -/
  PADDED : Bool
  /-- The index of the next block to expand (R25). -/
  BLK : Nat
  /-- The digest output register `DIGEST[0..31]` (R29). -/
  DIGEST : Option Digest
  /-- Parameter: capacity before padding, `<= 2^61 - 1` by its type (R7; log 5). No step writes it. -/
  MAXLEN : Fin (2 ^ 61)
  /-- Parameter (R7, R218; log 5). No step writes it. -/
  RESET_POLICY : ResetPolicy
  /-- MODEL's own: what the host will do, oldest first (R11; log 2). -/
  port : List HostInput
  /-- MODEL's own: the digests handed to the host, oldest first (R11; log 4). -/
  out : List Digest
deriving DecidableEq, Repr

/-- What executing a command, or part of one, answers. -/
abbrev Result := Host.Outcome State Fault Refusal

/-- The state after hardware reset (R270), with the reset values of the parameters (log 5) and a silent host (log 2). -/
def State.reset : State :=
  { H := none, vars := none, W := none, MSG := [], LEN := 0, PHASE := .Created, PADDED := false, BLK := 0,
    DIGEST := none, MAXLEN := Config.maxLen, RESET_POLICY := Config.resetPolicy, port := [], out := [] }

end Sys2Proof.Machine
end

