-- ==== Sys2Proof/Machine/Flags.lean ====
section
/-! DEFINITION. "There are no status flags, condition codes or predicates" (10_state.md R34). What stands in their
place are the two derived values of R33 and the codes of the control registers. -/

namespace Sys2Proof.Machine

/-- The 3-bit code of a phase (R24). -/
def Phase.code : Phase → BitVec 3
  | .Created => 0
  | .Initialized => 1
  | .Expanded => 2
  | .Compressed => 3
  | .Finalized => 4

/-- `NBLK := LEN / 64`, "defined only while `PADDED = 1`" (R33). -/
def State.NBLK (s : State) : Option Nat := if s.PADDED then some (s.LEN / 64) else none

/-- `DVALID := (PHASE = Finalized)` (R33). -/
def State.DVALID (s : State) : Bool := s.PHASE == .Finalized

/-- Whether a block is left to expand: `BLK < NBLK` (R164, R219). -/
def State.blockLeft (s : State) : Bool :=
  match s.NBLK with
  | some n => decide (s.BLK < n)
  | none => false

end Sys2Proof.Machine
end

