-- ==== Sys2Proof/Machine/Operands.lean ====
section
/-! DEFINITION. Operand forms: APPEND's immediate (30_encoding.md R83), the addresses EXPAND forms from `BLK`
(20_memory.md R52), and the bytes a host makes of generic elements (47_engine.md R216). -/

namespace Sys2Proof.Machine

/-- `imm8`, "an unsigned byte `0 .. 255`, used as is" (R83). -/
def immValue (imm8 : Byte) : Nat := imm8.toNat

/-- The address of word `i` of block `j` (R52). -/
def wordAddr (j i : Nat) : Nat := 64 * j + 4 * i

/-- R216: an unsigned element gives itself, a signed one `s mod 256`, a character its 8-bit code unit. An element
outside its range gives nothing. -/
def elementByte (x : Element) : Option Byte :=
  if x.wellFormed then
    match x with
    | .unsigned u => some (BitVec.ofNat 8 u)
    | .signed s => some (BitVec.ofNat 8 (s % 256).toNat)
    | .character code => some (BitVec.ofNat 8 code)
  else none

end Sys2Proof.Machine
end

