-- ==== Sys2Proof/Machine/Primitives.lean ====
section
/-! DEFINITION. The word arithmetic primitives (40_primitives.md). Each is total and sets no flag. -/

namespace Sys2Proof.Machine

/-- R101: `(x + y) mod 2^32`, the carry discarded. -/
def add32 (x y : Word) : Word := x + y

/-- R103: `x xor 0xFFFFFFFF`. -/
def not32 (x : Word) : Word := x ^^^ 0xFFFFFFFF#32

/-- R104: logical right shift. -/
def shr (x : Word) (n : Nat) : Word := x >>> n

/-- R105: rotate right by any integer, normalised by the floor remainder; a normalised amount of 0 is the identity. -/
def rotr (x : Word) (n : Int) : Word :=
  let m := (n % 32).toNat
  if m = 0 then x else shr x m + BitVec.ofNat 32 (x.toNat * 2 ^ (32 - m))

/-- R108: big-endian grouping of four bytes. -/
def be32 (b0 b1 b2 b3 : Byte) : Word :=
  BitVec.ofNat 32 (b0.toNat * 2 ^ 24 + b1.toNat * 2 ^ 16 + b2.toNat * 2 ^ 8 + b3.toNat)

/-- R108: the four big-endian bytes of a word. -/
def bytesBe32 (x : Word) : List Byte :=
  [x.extractLsb' 24 8, x.extractLsb' 16 8, x.extractLsb' 8 8, x.extractLsb' 0 8]

/-- R108: the eight big-endian bytes of a 64-bit value. -/
def bytesBe64 (v : BitVec 64) : List Byte :=
  [v.extractLsb' 56 8, v.extractLsb' 48 8, v.extractLsb' 40 8, v.extractLsb' 32 8,
   v.extractLsb' 24 8, v.extractLsb' 16 8, v.extractLsb' 8 8, v.extractLsb' 0 8]

/-- The `n` bytes MemWrite stores, byte `k` being `(v >> (8*(n-1-k))) mod 256` (R54). -/
def beBytes : (n v : Nat) → List Byte
  | 0, _ => []
  | n + 1, v => BitVec.ofNat 8 (v >>> (8 * n)) :: beBytes n v

end Sys2Proof.Machine
end

