-- ==== Sys2Proof/Machine/Ops.lean ====
section
/-! DEFINITION. The shared operations over memory and registers: sequencing, reads of registers that can be
`undefined`, MemRead and MemWrite (20_memory.md R53, R54), refusal (60_exceptions.md R242) and hardware reset
(70_reset_and_hazards.md R270). There is no exception to take and none to return from (R240, R246, R247): "every
command either completes wholly or is refused wholly with no state change". -/

namespace Sys2Proof.Machine

/-- One statement after another: the second starts from what the first answers, and a fault or refusal ends both. -/
def andThen {α β : Type} (o : Host.Outcome α Fault Refusal) (f : α → Host.Outcome β Fault Refusal) :
    Host.Outcome β Fault Refusal :=
  match o with
  | .next a => f a
  | .fault r => .fault r
  | .refused r => .refused r

/-- The read of something that can be `undefined` (R21). -/
def readReg {α : Type} (r : Reg) (v : Option α) : Host.Outcome α Fault Refusal :=
  match v with
  | some x => .next x
  | none => .fault (.undefinedRead r)

/-- `refuse(out_of_sequence)` (R219), or, in `Finalized` under the policy the spec gives no semantics, the refusal that
says so (R218; log 6). -/
def refuseSequence (s : State) : Result :=
  if s.PHASE = .Finalized ∧ s.RESET_POLICY = .automatic then .refused .resetPolicyUnspecified
  else .refused .outOfSequence

/-- The canonical form of a memory: addresses strictly rising (log 7). -/
abbrev Memory.wf (m : Memory) : Prop := m.Pairwise fun x y => x.1 < y.1

/-- The byte at an address, if one is there. -/
def Memory.read : Memory → Nat → Option Byte
  | [], _ => none
  | (k, b) :: m, a => if k = a then some b else Memory.read m a

/-- One byte written, the canonical form kept. -/
def Memory.write : Memory → Nat → Byte → Memory
  | [], a, b => [(a, b)]
  | (k, c) :: m, a, b =>
    if a < k then (a, b) :: (k, c) :: m
    else if a = k then (a, b) :: m
    else (k, c) :: Memory.write m a b

/-- Bytes written at rising addresses from `a`. -/
def Memory.writeBytes (m : Memory) (a : Nat) : List Byte → Memory
  | [] => m
  | b :: bs => Memory.writeBytes (m.write a b) (a + 1) bs

/-- The memory that holds exactly `bs` from address `a` on. -/
def Memory.ofBytesAt (a : Nat) : List Byte → Memory
  | [] => []
  | b :: bs => (a, b) :: Memory.ofBytesAt (a + 1) bs

/-- The bytes of a memory in address order. -/
def Memory.bytes (m : Memory) : List Byte := m.map Prod.snd

/-- The `n` bytes from `addr` as one big-endian number after the digits `acc` (R53: the byte at the lowest address is
the most significant). -/
def readBigEndian (m : Memory) (addr : Nat) : (n acc : Nat) → Host.Outcome Nat Fault Refusal
  | 0, acc => .next acc
  | n + 1, acc =>
    match m.read addr with
    | some b => readBigEndian m (addr + 1) n (acc * 256 + b.toNat)
    | none => .fault (.missingByte addr)

/-- `MemRead(addr, n)` (R53). -/
def memRead (s : State) (addr n : Nat) : Host.Outcome Nat Fault Refusal :=
  if (n = 1 ∨ n = 4) ∧ addr + n ≤ s.LEN then readBigEndian s.MSG addr n 0
  else .fault (.readDomain addr n)

/-- `MemWrite(addr, n, v)` (R54): append only. -/
def memWrite (addr n v : Nat) (s : State) : Result :=
  if (n = 1 ∨ n = 8) ∧ addr = s.LEN ∧ v < 256 ^ n then
    .next { s with MSG := s.MSG.writeBytes s.LEN (beBytes n v), LEN := s.LEN + n }
  else .fault (.writeDomain addr n v)

/-- Everything but `K` and the parameters at its reset value (R211, R270). The host's side stays. -/
def clear (s : State) : State :=
  { s with
    MSG := [], LEN := 0, PADDED := false, BLK := 0,
    H := none, W := none, vars := none, DIGEST := none, PHASE := .Created }

/-- Hardware reset (R270): "a reset during a command abandons the command and gives this state" (log 9). -/
def hardReset (s : State) : Result := .next (clear s)

end Sys2Proof.Machine
end

