-- ==== Sys2Proof/Machine/DigestState.lean ====
section
/-! DEFINITION. The digest state register file: the IV, ADDBLOCK and INIT (42_digest_state.md). -/

namespace Sys2Proof.Machine

/-- The initial constants (R130). -/
def IV : Vector Word 8 :=
  #v[0x6a09e667, 0xbb67ae85, 0x3c6ef372, 0xa54ff53a, 0x510e527f, 0x9b05688c, 0x1f83d9ab, 0x5be0cd19]

/-- The eight lanes of ADDBLOCK (R132): "no carry passes from one lane to another". -/
def addWords (x y : Vector Word 8) : Vector Word 8 :=
  #v[add32 x[0] y[0], add32 x[1] y[1], add32 x[2] y[2], add32 x[3] y[3],
     add32 x[4] y[4], add32 x[5] y[5], add32 x[6] y[6], add32 x[7] y[7]]

/-- `ADDBLOCK(delta)` (R132): `H[i] <- add32(H[i], delta[i])` in every lane at once. -/
def addBlock (delta : Vector Word 8) (s : State) : Result :=
  andThen (readReg .H s.H) fun h => .next { s with H := some (addWords h delta) }

/-- `INIT` (R131). -/
def execInit (s : State) : Host.Outcome State Fault Refusal :=
  if s.PHASE = .Created then .next { s with H := some IV, PHASE := .Initialized }
  else refuseSequence s

end Sys2Proof.Machine
end

