-- ==== Sys2Proof/Machine/Compressor.lean ====
section
/-! DEFINITION. The compressor: the four round functions, LOADVARS, ROUND, `compress` and the COMPRESS command
(45_compressor.md). -/

namespace Sys2Proof.Machine

/-- R170. -/
def Sigma1 (e : Word) : Word := rotr e 6 ^^^ rotr e 11 ^^^ rotr e 25

/-- R171. -/
def ch (e f g : Word) : Word := (e &&& f) ^^^ (not32 e &&& g)

/-- R172. -/
def Sigma0 (a : Word) : Word := rotr a 2 ^^^ rotr a 13 ^^^ rotr a 22

/-- R173. -/
def maj (a b c : Word) : Word := (a &&& b) ^^^ (a &&& c) ^^^ (b &&& c)

/-- The correspondence of `H[0..7]` to `a .. h` (R23, R174). -/
def Vars.ofWords (x : Vector Word 8) : Vars :=
  { a := x[0], b := x[1], c := x[2], d := x[3], e := x[4], f := x[5], g := x[6], h := x[7] }

/-- `(a, b, c, d, e, f, g, h)` as eight words (R132, R177). -/
def Vars.toWords (v : Vars) : Vector Word 8 := #v[v.a, v.b, v.c, v.d, v.e, v.f, v.g, v.h]

/-- `temp1` of a round (R175). -/
def temp1 (v : Vars) (k w : Word) : Word := add32 (add32 (add32 (add32 v.h (Sigma1 v.e)) (ch v.e v.f v.g)) k) w

/-- `temp2` of a round (R175). -/
def temp2 (v : Vars) : Word := add32 (Sigma0 v.a) (maj v.a v.b v.c)

/-- The simultaneous assignment that ends a round (R175): every right-hand side reads the old `a .. h`. -/
def roundVars (v : Vars) (k w : Word) : Vars :=
  { a := add32 (temp1 v k w) (temp2 v), b := v.a, c := v.b, d := v.c,
    e := add32 v.d (temp1 v k w), f := v.e, g := v.f, h := v.g }

/-- `LOADVARS` (R174). -/
def loadVars (s : State) : Result :=
  andThen (readReg .H s.H) fun x => .next { s with vars := some (Vars.ofWords x) }

/-- `ROUND(i)` (R175). -/
def roundOp (i : Fin 64) (s : State) : Result :=
  andThen (readReg .vars s.vars) fun v =>
  andThen (readReg .W s.W) fun w =>
  .next { s with vars := some (roundVars v (kLookup i) w[i]) }

/-- `ROUND(0)` to `ROUND(n - 1)`, in increasing order (R176). -/
def rounds : (n : Nat) → n ≤ 64 → State → Result
  | 0, _, s => .next s
  | n + 1, h, s => andThen (rounds n (Nat.le_of_succ_le h) s) (roundOp ⟨n, h⟩)

/-- The rounds as a function of the working variables and the schedule alone (R177). -/
def roundsVars (w : Vector Word 64) : (n : Nat) → n ≤ 64 → Vars → Vars
  | 0, _, v => v
  | n + 1, h, v => roundVars (roundsVars w n (Nat.le_of_succ_le h) v) (kLookup ⟨n, h⟩) (w[n]'h)

/-- `compress(Hin, w)` (R177). -/
def compress (Hin : Vector Word 8) (w : Vector Word 64) : Vector Word 8 :=
  addWords Hin (roundsVars w 64 (Nat.le_refl 64) (Vars.ofWords Hin)).toWords

/-- `COMPRESS` (R178). `W` and `a .. h` are discarded: `undefined` again (D19). -/
def execCompress (s : State) : Host.Outcome State Fault Refusal :=
  if s.PHASE = .Expanded then
    andThen (loadVars s) fun s1 =>
    andThen (rounds 64 (Nat.le_refl 64) s1) fun s2 =>
    andThen (readReg .vars s2.vars) fun v =>
    andThen (addBlock v.toWords s2) fun s3 =>
    .next { s3 with BLK := s3.BLK + 1, W := none, vars := none, PHASE := .Compressed }
  else refuseSequence s

end Sys2Proof.Machine
end

