-- ==== Sys2Proof/Machine/Finalizer.lean ====
section
/-! DEFINITION. The finalizer: `serialize`, the FINALIZE command, the digest port and the hex helper
(46_finalizer.md, 20_memory.md R56). -/

namespace Sys2Proof.Machine

/-- The 32 bytes of `serialize` as a list (R200). -/
def serializeBytes (x : Vector Word 8) : List Byte :=
  bytesBe32 x[0] ++ bytesBe32 x[1] ++ bytesBe32 x[2] ++ bytesBe32 x[3] ++
  bytesBe32 x[4] ++ bytesBe32 x[5] ++ bytesBe32 x[6] ++ bytesBe32 x[7]

/-- "The length is always 32" (R200). -/
theorem serializeBytes_length (x : Vector Word 8) : (serializeBytes x).length = 32 := rfl

/-- `serialize(Hin)` (R200). -/
def serialize (x : Vector Word 8) : Digest := ⟨(serializeBytes x).toArray, serializeBytes_length x⟩

/-- `FINALIZE` (R201); the digest it returns goes to the host (log 4). -/
def execFinalize (s : State) : Host.Outcome State Fault Refusal :=
  if s.PHASE = .Compressed ∧ s.NBLK = some s.BLK then
    andThen (readReg .H s.H) fun x =>
    .next { s with DIGEST := some (serialize x), PHASE := .Finalized, out := s.out ++ [serialize x] }
  else refuseSequence s

/-- The digest port (R56): the 32 bytes while `PHASE = Finalized`, else `refuse(digest_not_valid)`. -/
def digestPort (s : State) : Host.Outcome Digest Fault Refusal :=
  if s.DVALID then readReg .DIGEST s.DIGEST else .refused .digestNotValid

/-- The host reads the digest port: no side effect on the engine (R56, R202). -/
def hostRead (s : State) : Result :=
  andThen (digestPort s) fun d => .next { s with out := s.out ++ [d] }

/-- A digest on the 256-bit bus: `DIGEST[k]` is bits `255-8k .. 248-8k` (R56, R86). -/
def digestBus (d : Digest) : BitVec 256 :=
  BitVec.ofNat 256 (d.toList.foldl (fun acc b => acc * 256 + b.toNat) 0)

/-- `HEXDIGIT`, index `0 .. 15` (R203). -/
def hexDigit (v : BitVec 4) : Char :=
  if v.toNat < 10 then Char.ofNat (0x30 + v.toNat) else Char.ofNat (0x61 + (v.toNat - 10))

/-- The characters of `toHexString`: for each byte, the high nibble's digit and the low nibble's (R203). -/
def hexChars : List Byte → List Char
  | [] => []
  | v :: s => hexDigit (v.extractLsb' 4 4) :: hexDigit (v.extractLsb' 0 4) :: hexChars s

/-- `toHexString(bytes)` (R203), a host-side helper. -/
def toHexString (s : List Byte) : String := String.ofList (hexChars s)

end Sys2Proof.Machine
end

