-- ==== Sys2Proof/Machine/Padder.lean ====
section
/-! DEFINITION. The padder: the function `pad` and the PAD command (43_padder.md). -/

namespace Sys2Proof.Machine

/-- The zero count `k = (55 - L) mod 64`, a floor remainder of integers (R141). -/
def zeroCount (L : Nat) : Nat := ((55 - (L : Int)) % 64).toNat

/-- The number of blocks of a padded message of `L` bytes, `floor((L + 8) / 64) + 1` (R141). -/
def blockCount (L : Nat) : Nat := (L + 8) / 64 + 1

/-- `pad(m)` (R140); `8 * L` is exact in 64 bits for every length the machine admits (R143). -/
def pad (m : List Byte) : List Byte :=
  m ++ [0x80#8] ++ List.replicate (zeroCount m.length) 0x00#8 ++ bytesBe64 (BitVec.ofNat 64 (8 * m.length))

/-- `repeat k times: MemWrite(LEN, 1, 0x00)` (R142). -/
def writeZeros : Nat → State → Result
  | 0, s => .next s
  | k + 1, s => andThen (memWrite s.LEN 1 0x00 s) (writeZeros k)

/-- `PAD` (R142). -/
def execPad (s : State) : Host.Outcome State Fault Refusal :=
  if s.PHASE = .Initialized ∧ s.PADDED = false then
    let L := s.LEN
    andThen (memWrite s.LEN 1 0x80 s) fun s1 =>
    andThen (writeZeros (zeroCount L) s1) fun s2 =>
    andThen (memWrite s2.LEN 8 (8 * L) s2) fun s3 =>
    .next { s3 with PADDED := true }
  else refuseSequence s

end Sys2Proof.Machine
end

