-- ==== Sys2Proof/Machine/Scheduler.lean ====
section
/-! DEFINITION. The message scheduler: `sigma0`, `sigma1`, `expand` and the EXPAND command (44_scheduler.md). -/

namespace Sys2Proof.Machine

/-- R160. The third term is a shift. -/
def sigma0 (x : Word) : Word := rotr x 7 ^^^ rotr x 18 ^^^ shr x 3

/-- R161. The third term is a shift. -/
def sigma1 (x : Word) : Word := rotr x 17 ^^^ rotr x 19 ^^^ shr x 10

/-- The recurrence of R163 from the first sixteen words on; `w[i-16]` is `w[n]` for the new word `i = 16 + n`. -/
def schedule (first : Vector Word 16) : (n : Nat) → Vector Word (16 + n)
  | 0 => first
  | n + 1 =>
    let w := schedule first n
    w.push (add32 (add32 (add32 w[n] (sigma0 w[n + 1])) w[n + 9]) (sigma1 w[n + 14]))

/-- The first `n` words of a block, each four bytes in big-endian order (R162). -/
def groupWords (B : Vector Byte 64) : (n : Nat) → n ≤ 16 → Vector Word n
  | 0, _ => #v[]
  | n + 1, h =>
    (groupWords B n (Nat.le_of_succ_le h)).push (be32 B[4 * n] B[4 * n + 1] B[4 * n + 2] B[4 * n + 3])

/-- `expand(B)` (R162, R163). -/
def expand (B : Vector Byte 64) : Vector Word 64 := schedule (groupWords B 16 (Nat.le_refl 16)) 48

/-- `for i in 0..n-1: W[i] <- MemRead(64*j + 4*i, 4)` (R164). -/
def readWords (s : State) (j : Nat) : (n : Nat) → Host.Outcome (Vector Word n) Fault Refusal
  | 0 => .next #v[]
  | n + 1 =>
    andThen (readWords s j n) fun w =>
    andThen (memRead s (wordAddr j n) 4) fun v => .next (w.push (BitVec.ofNat 32 v))

/-- `EXPAND` (R164). -/
def execExpand (s : State) : Host.Outcome State Fault Refusal :=
  if s.PADDED = true ∧ s.blockLeft = true ∧ (s.PHASE = .Initialized ∨ s.PHASE = .Compressed) then
    andThen (readWords s s.BLK 16) fun w => .next { s with W := some (schedule w 48), PHASE := .Expanded }
  else refuseSequence s

end Sys2Proof.Machine
end

