-- ==== Sys2Proof/Machine/Engine.lean ====
section
/-! DEFINITION. The sequencer: RESET, APPEND, HASH, and the public function `hash(m)` (47_engine.md). -/

namespace Sys2Proof.Machine

/-- `RESET` (R211): legal in every phase. -/
def execReset (s : State) : Host.Outcome State Fault Refusal := .next (clear s)

/-- `APPEND imm8` (R212), the order of checks R245. -/
def execAppend (imm8 : Byte) (s : State) : Host.Outcome State Fault Refusal :=
  if s.PHASE = .Created then
    if s.LEN < s.MAXLEN.val then memWrite s.LEN 1 (immValue imm8) s
    else .refused .capacity
  else refuseSequence s

/-- `repeat n times: EXPAND; COMPRESS` (R213). -/
def runBlocks : Nat → State → Result
  | 0, s => .next s
  | n + 1, s => andThen (execExpand s) fun s1 => andThen (execCompress s1) (runBlocks n)

/-- `HASH` (R213): "exactly the command sequence `INIT; PAD; (EXPAND; COMPRESS) x NBLK; FINALIZE`". -/
def execHash (s : State) : Host.Outcome State Fault Refusal :=
  if s.PHASE = .Created then
    andThen (execInit s) fun s1 =>
    andThen (execPad s1) fun s2 =>
    andThen (readReg .NBLK s2.NBLK) fun n =>
    andThen (runBlocks n s2) execFinalize
  else refuseSequence s

/-- The first `n` blocks of a byte sequence, in increasing index, each 64 bytes (R52, R214). -/
def splitBlocks : Nat → List Byte → List (Vector Byte 64)
  | 0, _ => []
  | n + 1, p =>
    if h : 64 ≤ p.length then
      ⟨(p.take 64).toArray, by simp [List.length_take, Nat.min_eq_left h]⟩ :: splitBlocks n (p.drop 64)
    else []

/-- The chaining of R215: `compress(Hacc, expand(block j))` over the blocks, starting from `Hin`. -/
def foldBlocks (Hin : Vector Word 8) (bs : List (Vector Byte 64)) : Vector Word 8 :=
  bs.foldl (fun acc B => compress acc (expand B)) Hin

/-- `hash(m)` (R215). -/
def hashMessage (m : List Byte) : Digest :=
  serialize (foldBlocks IV (splitBlocks (blockCount m.length) (pad m)))

end Sys2Proof.Machine
end

