-- ==== Sys2Proof/Machine/Dispatch.lean ====
section
/-! DEFINITION. One arm per command (30_encoding.md R80). -/

namespace Sys2Proof.Machine

def exec (i : Instr) (s : State) : Host.Outcome State Fault Refusal :=
  match i with
  | .reset => Sys2Proof.Machine.execReset s
  | .append imm8 => Sys2Proof.Machine.execAppend imm8 s
  | .init => Sys2Proof.Machine.execInit s
  | .pad => Sys2Proof.Machine.execPad s
  | .expand => Sys2Proof.Machine.execExpand s
  | .compress => Sys2Proof.Machine.execCompress s
  | .finalize => Sys2Proof.Machine.execFinalize s
  | .hash => Sys2Proof.Machine.execHash s

end Sys2Proof.Machine
end

