-- ==== Sys2Proof/Machine/Step.lean ====
section
/-! DEFINITION. One step: the engine takes the next thing the host does at its ports (00_scope.md R9, R11). -/

namespace Sys2Proof.Machine

/-- One step. The command port comes first in `port`; with nothing there, the engine holds its state (log 3). A
reserved word is refused before anything else is looked at (R245). -/
def step (s : State) : Host.Outcome State Fault Refusal :=
  match s.port with
  | [] => .next s
  | .command w :: rest =>
    match decode w with
    | .ok i => exec i { s with port := rest }
    | .reserved _ => .refused .reservedEncoding
  | .hardReset _ :: rest => hardReset { s with port := rest }
  | .readDigest :: rest => hostRead { s with port := rest }

/-- The command word the low `nbits` bits of `w` stand for, put where `step` takes its next command: at the front of
the command port (log 2). Bits that are no command word put the reserved word `0x000` there (log 12). -/
def State.withFetchWord (s : State) (nbits w : Nat) : State :=
  { s with port := .command ((tableWord nbits w).getD 0x000#12) :: s.port }

end Sys2Proof.Machine
end

