-- ==== Sys2Proof/Machine/Legality.lean ====
section
/-! DEFINITION. The tables of 47_engine.md as tables: the legality of every command in every state (R219) and the
transitions (R210). The meanings do not read them: each takes its precondition from its own rule. -/

namespace Sys2Proof.Machine

/-- The seven columns of R219: "all the reachable states". -/
inductive Column where
  | created | unpadded | padded | expanded | moreBlocks | lastBlock | finalized
deriving DecidableEq, Repr

/-- A cell of R219: `ok`, `ok if LEN < MAXLEN, else refuse(capacity)`, or `refuse(out_of_sequence)`. -/
inductive Cell where
  | ok | okIfRoom | refuse
deriving DecidableEq, Repr

/-- The column a state stands in. -/
def State.column (s : State) : Column :=
  match s.PHASE with
  | .Created => .created
  | .Initialized => if s.PADDED then .padded else .unpadded
  | .Expanded => .expanded
  | .Compressed => if s.blockLeft then .moreBlocks else .lastBlock
  | .Finalized => .finalized

/-- R219, row by row; a column without a line of its own is `refuse`. -/
def legality : Mnemonic → Column → Cell
  | .RESET, _ => .ok
  | .APPEND, .created => .okIfRoom
  | .APPEND, _ => .refuse
  | .INIT, .created => .ok
  | .INIT, _ => .refuse
  | .PAD, .unpadded => .ok
  | .PAD, _ => .refuse
  | .EXPAND, .padded => .ok
  | .EXPAND, .moreBlocks => .ok
  | .EXPAND, _ => .refuse
  | .COMPRESS, .expanded => .ok
  | .COMPRESS, _ => .refuse
  | .FINALIZE, .lastBlock => .ok
  | .FINALIZE, _ => .refuse
  | .HASH, .created => .ok
  | .HASH, _ => .refuse

/-- The phase a legal command leads to (R210). -/
def phaseAfter : Mnemonic → Phase
  | .RESET => .Created
  | .APPEND => .Created
  | .INIT => .Initialized
  | .PAD => .Initialized
  | .EXPAND => .Expanded
  | .COMPRESS => .Compressed
  | .FINALIZE => .Finalized
  | .HASH => .Finalized

/-- Commands one after another, without the host between them (R220). -/
def runCommands : List Instr → State → Result
  | [], s => .next s
  | i :: is, s => andThen (exec i s) (runCommands is)

/-- `(EXPAND; COMPRESS) x n` (R213, R220). -/
def blockCommands : Nat → List Instr
  | 0 => []
  | n + 1 => .expand :: .compress :: blockCommands n

/-- The streaming sequence `INIT; PAD; (EXPAND; COMPRESS) x n; FINALIZE` (R220). -/
def streamCommands (n : Nat) : List Instr := .init :: .pad :: (blockCommands n ++ [.finalize])

end Sys2Proof.Machine
end

