-- ==== Sys2Proof/Machine/Assembler.lean ====
section
/-! DEFINITION. The host's side of the command port: assembler lines (30_encoding.md R87) and pseudo-instructions
(R88). No command's meaning depends on it. -/

namespace Sys2Proof.Machine

/-- The command of a well-formed source line (R87). -/
def assemble (l : SourceLine) : Option Instr :=
  if l.wellFormed then
    match l.mnemonic with
    | .RESET => some .reset
    | .APPEND => some (.append (BitVec.ofNat 8 (l.operand.getD 0)))
    | .INIT => some .init
    | .PAD => some .pad
    | .EXPAND => some .expand
    | .COMPRESS => some .compress
    | .FINALIZE => some .finalize
    | .HASH => some .hash
  else none

/-- The expansions of R88. -/
def expansion (p : Pseudo) : Option (List Instr) :=
  if p.wellFormed then
    match p with
    | .load bytes => some (bytes.map .append)
    | .loads text => some (text.map fun c => .append (BitVec.ofNat 8 c))
    | .hashmsg bytes => some (.reset :: (bytes.map .append ++ [.hash]))
    | .block => some [.expand, .compress]
  else none

/-- Spaces between tokens: the space and the tab (log 13). -/
def isBlank (c : Char) : Bool := c.toNat == 0x20 || c.toNat == 0x09

/-- The tokens of a line. -/
def tokens (l : List Char) : List (List Char) := (l.splitOnP isBlank).filter fun t => !t.isEmpty

/-- The value of a digit in a base up to 16; both cases of `a .. f` (log 13). -/
def digitValue (base : Nat) (c : Char) : Option Nat :=
  let n := c.toNat
  let v := if 0x30 ≤ n ∧ n ≤ 0x39 then n - 0x30
    else if 0x61 ≤ n ∧ n ≤ 0x66 then n - 0x61 + 10
    else if 0x41 ≤ n ∧ n ≤ 0x46 then n - 0x41 + 10
    else base
  if v < base then some v else none

/-- The digits of a number in a base, after the digits `acc`. -/
def digits (base : Nat) : List Char → Nat → Option Nat
  | [], acc => some acc
  | c :: cs, acc =>
    match digitValue base c with
    | some v => digits base cs (acc * base + v)
    | none => none

/-- "numbers are decimal or `0x` hexadecimal" (R87). -/
def number : List Char → Option Nat
  | [] => none
  | ['0', 'x'] => none
  | '0' :: 'x' :: ds => digits 16 ds 0
  | ds => digits 10 ds 0

/-- "mnemonics are upper case" (R87). -/
def mnemonicOf (t : List Char) : Option Mnemonic :=
  if t = "RESET".toList then some .RESET
  else if t = "APPEND".toList then some .APPEND
  else if t = "INIT".toList then some .INIT
  else if t = "PAD".toList then some .PAD
  else if t = "EXPAND".toList then some .EXPAND
  else if t = "COMPRESS".toList then some .COMPRESS
  else if t = "FINALIZE".toList then some .FINALIZE
  else if t = "HASH".toList then some .HASH
  else none

/-- One byte of a LOAD list: one number, at most 255. -/
def byteOf (t : List Char) : Option Byte :=
  match tokens t with
  | [n] =>
    match number n with
    | some v => if v ≤ 255 then some (BitVec.ofNat 8 v) else none
    | none => none
  | _ => none

/-- The list `b0, b1, ..., bn` (R88); "an empty list expands to nothing". -/
def byteList (t : List Char) : Option (List Byte) :=
  if (tokens t).isEmpty then some [] else (t.splitOnP (· == ',')).mapM byteOf

/-- The text between the first and the last quotation mark of an operand that begins and ends with one (log 13). -/
def quoted (t : List Char) : Option (List Nat) :=
  let body := (t.dropWhile isBlank).reverse.dropWhile isBlank
  match body with
  | q1 :: rest =>
    match rest.reverse with
    | q2 :: text => if q1.toNat = 0x22 ∧ q2.toNat = 0x22 then some (text.map Char.toNat) else none
    | [] => none
  | [] => none

/-- The pseudo-instruction a name and its operand text stand for (R88). -/
def pseudoOf (name operand : List Char) : Option Pseudo :=
  if name = "LOAD".toList then (byteList operand).map .load
  else if name = "LOADS".toList then (quoted operand).map .loads
  else if name = "HASHMSG".toList then (byteList operand).map .hashmsg
  else if name = "BLOCK".toList then if (tokens operand).isEmpty then some .block else none
  else none

/-- A line without its comment: "`;` starts a comment", but not between quotation marks, where it is a character of a
text (log 13); `inText` says whether a quotation mark is open. -/
def uncomment (inText : Bool) : List Char → List Char
  | [] => []
  | c :: cs =>
    if c.toNat = 0x22 then c :: uncomment (!inText) cs
    else if c.toNat = 0x3B ∧ inText = false then []
    else c :: uncomment inText cs

/-- One line (R87, R88): "one command per line; `;` starts a comment". A line without a token is no command. -/
def parseLine (line : List Char) : Option (List Instr) :=
  let code := (uncomment false line).dropWhile isBlank
  let name := code.takeWhile fun c => !isBlank c
  let operand := code.dropWhile fun c => !isBlank c
  if name = [] then some []
  else
    match mnemonicOf name with
    | some m =>
      match tokens operand with
      | [] => (assemble ⟨m, none⟩).map fun i => [i]
      | [n] => ((number n).bind fun v => assemble ⟨m, some v⟩).map fun i => [i]
      | _ => none
    | none => (pseudoOf name operand).bind expansion

/-- A program: its lines' commands in order. -/
def parseProgram : List (List Char) → Option (List Instr)
  | [] => some []
  | l :: ls =>
    match parseLine l, parseProgram ls with
    | some is, some js => some (is ++ js)
    | _, _ => none

end Sys2Proof.Machine
end

