-- ==== Sys2Proof/Safety.lean ====
section
/-! DEFINITION. What the claims are stated in: the invariant of 10_state.md R37 and what it rests on, what the state
means in terms of `hashMessage` (47_engine.md R215), and readers of an outcome. -/

namespace Sys2Proof.Machine

/-- The next state of an outcome, if it is one. -/
def nextState {α : Type} (o : Host.Outcome α Fault Refusal) : Option α :=
  match o with
  | .next s => some s
  | .fault _ => none
  | .refused _ => none

/-- The refusal of an outcome, if it is one. -/
def refusalIn {α : Type} (o : Host.Outcome α Fault Refusal) : Option Refusal :=
  match o with
  | .next _ => none
  | .fault _ => none
  | .refused r => some r

/-- The fault of an outcome, if it is one. -/
def faultIn {α : Type} (o : Host.Outcome α Fault Refusal) : Option Fault :=
  match o with
  | .next _ => none
  | .fault r => some r
  | .refused _ => none

/-- `MSG` holds exactly the bytes `MSG[0] .. MSG[LEN-1]` (R30, R31, R50): the addresses listed are `0 .. LEN-1`. -/
abbrev State.BufferOk (s : State) : Prop := s.MSG.map Prod.fst = List.range s.LEN

/-- R31, R37 (2): the bounds of `LEN` before and after padding. -/
abbrev State.LengthOk (s : State) : Prop :=
  (s.PADDED = false → s.LEN ≤ s.MAXLEN.val) ∧
  (s.PADDED = true → s.LEN % 64 = 0 ∧ 64 ≤ s.LEN ∧ s.LEN ≤ s.MAXLEN.val + 72)

/-- R37 (3) to (6) and R24, R25: what each phase says of `PADDED` and `BLK`. -/
abbrev State.PhaseOk (s : State) : Prop :=
  (s.PHASE = .Created → s.PADDED = false ∧ s.BLK = 0) ∧
  (s.PHASE = .Initialized → s.BLK = 0) ∧
  (s.PHASE = .Expanded → s.PADDED = true ∧ s.BLK < s.LEN / 64) ∧
  (s.PHASE = .Compressed → s.PADDED = true ∧ 1 ≤ s.BLK ∧ s.BLK ≤ s.LEN / 64) ∧
  (s.PHASE = .Finalized → s.PADDED = true ∧ s.BLK = s.LEN / 64)

/-- R37 (6), (7), R27, R28, R29: which registers hold a value in which phase. -/
abbrev State.DefinedOk (s : State) : Prop :=
  (s.H.isSome = true ↔ s.PHASE ≠ .Created) ∧
  (s.W.isSome = true ↔ s.PHASE = .Expanded) ∧
  s.vars = none ∧
  (s.PHASE = .Finalized → s.DIGEST = s.H.map serialize) ∧
  (s.PHASE ≠ .Finalized → s.DIGEST = none)

/-- The invariant: every item of R37, with the shape of the buffer and the bounds of R31. -/
abbrev State.Inv (s : State) : Prop := s.BufferOk ∧ s.LengthOk ∧ s.PhaseOk ∧ s.DefinedOk

/-- The message buffer after padding holds `pad m` (R142). -/
abbrev State.PaddedAs (s : State) (m : List Byte) : Prop :=
  s.MSG = Memory.ofBytesAt 0 (pad m) ∧ s.LEN = (pad m).length ∧ m.length ≤ s.MAXLEN.val

/-- What the registers hold in terms of the message (R215): the chaining value after `BLK` blocks, the schedule of
block `BLK`, the hash of the message. -/
def State.Meaning (s : State) : Prop :=
  (s.PHASE ≠ .Created → s.PADDED = false → s.H = some IV) ∧
  (s.PADDED = true → ∃ m : List Byte, s.PaddedAs m ∧
    (s.PHASE ≠ .Created → s.H = some (foldBlocks IV (splitBlocks s.BLK (pad m)))) ∧
    (s.PHASE = .Expanded → ∃ B : Vector Byte 64,
      splitBlocks (s.BLK + 1) (pad m) = splitBlocks s.BLK (pad m) ++ [B] ∧ s.W = some (expand B)) ∧
    (s.PHASE = .Finalized → s.DIGEST = some (hashMessage m)))

/-- A digest is genuine when it is `hashMessage` of a message the machine can hold (R215, R36). -/
def State.Genuine (s : State) (d : Digest) : Prop := ∃ m : List Byte, m.length ≤ s.MAXLEN.val ∧ d = hashMessage m

/-- A sequence of commands is safe from a state when it runs to its end: no refusal and no fault on the way. -/
def Safe (is : List Instr) (s : State) : Prop := ∃ t, runCommands is s = .next t

end Sys2Proof.Machine
end

