-- ==== Sys2Proof/Certificates/Slice0/Obligations.lean ====
section
/-! DEFINITION. The statements for the provers, one per numbered rule or group of rules of spec/. Where a refusal
clause has the hypothesis `RESET_POLICY = required`, that is R7: "the spec gives semantics for `required` only". -/

open Sys2Proof Sys2Proof.Machine

/-! ## Encoding (30_encoding.md) -/

/-- R82, R84: a command word decodes to a command exactly when it is that command's encoding; so decoding an encoded
command gives it back with its operand, and no two words stand for one command. -/
def Obligations.DecodeInvertsEncode : Prop :=
  ∀ (i : Instr) (w : CmdWord), i.wellFormed = true → (decode w = .ok i ↔ w = encode i)

/-- R84: a word is the command of a row exactly when `w and mask = match`, APPEND taking `cmd[7:0]` as its operand;
the rows do not overlap. -/
def Obligations.DecoderFollowsTheOpcodeMap : Prop :=
  (∀ (w : CmdWord) (i : Instr), decode w = .ok i ↔
    (∃ r ∈ opcodeTable, r.covers w = true ∧ r.mnemonic = i.mnemonic) ∧
    (i.mnemonic = .APPEND → operandByte i = immField w)) ∧
  (∀ w : CmdWord, ∀ r ∈ opcodeTable, ∀ r' ∈ opcodeTable, r.covers w = true → r'.covers w = true → r = r')

/-- R85: which words are reserved, how many, and that a reserved word is `refuse(reserved_encoding)` in every
state. -/
def Obligations.ReservedWordsAreRefused : Prop :=
  (∀ w : CmdWord, (∃ why, decode w = .reserved why) ↔
    (opField w ∈ [0x0#4, 0x9#4, 0xA#4, 0xB#4, 0xC#4, 0xD#4, 0xE#4, 0xF#4] ∨
     opField w ∈ [0x1#4, 0x3#4, 0x4#4, 0x5#4, 0x6#4, 0x7#4, 0x8#4] ∧ immField w ≠ 0)) ∧
  ((List.range 4096).filter fun n =>
    match decode (BitVec.ofNat 12 n) with
    | .ok _ => false
    | .reserved _ => true).length = 3833 ∧
  (∀ (s : State) (w : CmdWord) (why : ReservedWord) (rest : List HostInput),
    s.port = .command w :: rest → decode w = .reserved why → step s = .refused .reservedEncoding)

/-- The words of 95_test_vectors.md T13 decode as it says. -/
def Obligations.PrintedWordsDecode : Prop :=
  decode 0x100 = .ok .reset ∧ decode 0x200 = .ok (.append 0x00) ∧ decode 0x261 = .ok (.append 0x61) ∧
  decode 0x280 = .ok (.append 0x80) ∧ decode 0x2FF = .ok (.append 0xFF) ∧ decode 0x300 = .ok .init ∧
  decode 0x400 = .ok .pad ∧ decode 0x500 = .ok .expand ∧ decode 0x600 = .ok .compress ∧
  decode 0x700 = .ok .finalize ∧ decode 0x800 = .ok .hash ∧
  decode 0x000 = .reserved (.opcode 0x0) ∧ decode 0x101 = .reserved (.operand 0x1 0x01) ∧
  decode 0x8FF = .reserved (.operand 0x8 0xFF) ∧ decode 0x900 = .reserved (.opcode 0x9) ∧
  decode 0xF00 = .reserved (.opcode 0xF) ∧ decode 0xFFF = .reserved (.opcode 0xF)

/-! ## The step -/

/-- R9, R62, R245: a step on a command word at the port is exec of the command it decodes to, with the word taken off
the port and nothing else done; a hardware reset, whether it overtakes a command or not, is `hardReset`, and a read of
the digest port is `hostRead`. That what the host does waits in `port` is the model's picture of the ports (logs 2,
9). -/
def Obligations.StepRunsTheDecodedCommand : Prop :=
  (∀ (s : State) (w : CmdWord) (i : Instr) (rest : List HostInput),
    s.port = .command w :: rest → decode w = .ok i → step s = exec i { s with port := rest }) ∧
  (∀ (s : State) (nbits w : Nat) (i : Instr),
    decodeTableWord nbits w = some i → step (s.withFetchWord nbits w) = exec i s) ∧
  (∀ (s : State) (running : Option CmdWord) (rest : List HostInput),
    s.port = .hardReset running :: rest → step s = hardReset { s with port := rest }) ∧
  (∀ (s : State) (rest : List HostInput),
    s.port = .readDigest :: rest → step s = hostRead { s with port := rest })

/-- The model's choice for a silent host (log 3): with nothing at its ports the engine keeps its whole state. -/
def Obligations.SilentHostLeavesTheState : Prop :=
  ∀ s : State, s.port = [] → step s = .next s

/-! ## Reset -/

/-- R270: hardware reset, from any state, gives every piece of state its reset value; `K` is a constant, the parameters
are not state, and the host's side (the model's `port` and `out`) is not the engine's. -/
def Obligations.HardwareResetGivesTheResetState : Prop :=
  ∀ s : State, hardReset s = .next
    { H := none, vars := none, W := none, DIGEST := none, MSG := [], LEN := 0, PADDED := false, BLK := 0,
      PHASE := .Created, MAXLEN := s.MAXLEN, RESET_POLICY := s.RESET_POLICY, port := s.port, out := s.out }

/-- R211: RESET, in every phase: its word, the written state, and idempotence. -/
def Obligations.ResetClearsEverything : Prop :=
  encode .reset = 0x100#12 ∧
  ∀ s : State, ∃ t : State, exec .reset s = .next t ∧
    t = { s with
      MSG := [], LEN := 0, PADDED := false, BLK := 0, H := none, W := none, vars := none, DIGEST := none,
      PHASE := .Created } ∧
    exec .reset t = .next t

/-- R271: hardware reset and the RESET command leave the same state, the reset state of the same engine. -/
def Obligations.ResetCommandEqualsHardwareReset : Prop :=
  ∀ s : State, hardReset s = exec .reset s ∧
    exec .reset s =
      .next { State.reset with MAXLEN := s.MAXLEN, RESET_POLICY := s.RESET_POLICY, port := s.port, out := s.out }

/-! ## The commands: effect, frame, refusal -/

/-- R212: APPEND writes one byte at `LEN` and nothing else; elsewhere it is refused, `out_of_sequence` before
`capacity`. -/
def Obligations.AppendAddsOneByte : Prop :=
  (∀ imm8 : Byte, (encode (.append imm8)).toNat = 0x200 + imm8.toNat) ∧
  ∀ (s : State) (imm8 : Byte),
    (s.PHASE = .Created → s.LEN < s.MAXLEN.val →
      ∃ t : State, exec (.append imm8) s = .next t ∧
        t = { s with MSG := t.MSG, LEN := s.LEN + 1 } ∧
        t.MSG.read s.LEN = some imm8 ∧
        ∀ a, a ≠ s.LEN → t.MSG.read a = s.MSG.read a) ∧
    (s.PHASE = .Created → s.MAXLEN.val ≤ s.LEN → exec (.append imm8) s = .refused .capacity) ∧
    (s.RESET_POLICY = .required → s.PHASE ≠ .Created → exec (.append imm8) s = .refused .outOfSequence)

/-- R130, R131: INIT writes the IV into `H`, moves to `Initialized`, writes nothing else; elsewhere it is refused. -/
def Obligations.InitLoadsTheInitialConstants : Prop :=
  encode .init = 0x300#12 ∧
  ∀ s : State,
    (s.PHASE = .Created →
      exec .init s = .next
        { s with
          H := some #v[0x6a09e667#32, 0xbb67ae85#32, 0x3c6ef372#32, 0xa54ff53a#32,
                       0x510e527f#32, 0x9b05688c#32, 0x1f83d9ab#32, 0x5be0cd19#32],
          PHASE := .Initialized }) ∧
    (s.RESET_POLICY = .required → s.PHASE ≠ .Created → exec .init s = .refused .outOfSequence)

/-- R142: PAD appends 0x80, the zeros, and the bit length most significant byte first, sets `PADDED`, and writes nothing
else; elsewhere it is refused. -/
def Obligations.PadAppendsMarkerZerosAndLength : Prop :=
  encode .pad = 0x400#12 ∧
  ∀ s : State,
    (s.PHASE = .Initialized → s.PADDED = false → s.LEN ≤ s.MAXLEN.val →
      ∃ t : State, exec .pad s = .next t ∧
        t = { s with MSG := t.MSG, LEN := s.LEN + 9 + zeroCount s.LEN, PADDED := true } ∧
        t.MSG.read s.LEN = some 0x80#8 ∧
        (∀ j, j < zeroCount s.LEN → t.MSG.read (s.LEN + 1 + j) = some 0x00#8) ∧
        (∀ j, j < 8 → t.MSG.read (s.LEN + 1 + zeroCount s.LEN + j) =
          some (BitVec.ofNat 8 ((8 * s.LEN) / 256 ^ (7 - j)))) ∧
        ∀ a, a < s.LEN ∨ s.LEN + 9 + zeroCount s.LEN ≤ a → t.MSG.read a = s.MSG.read a) ∧
    (s.RESET_POLICY = .required → ¬ (s.PHASE = .Initialized ∧ s.PADDED = false) →
      exec .pad s = .refused .outOfSequence)

/-- R140, R142, R145: on a buffer that holds the message `m`, PAD leaves the buffer `pad m`. -/
def Obligations.PadComputesThePaddingFunction : Prop :=
  ∀ (s : State) (m : List Byte),
    s.PHASE = .Initialized → s.PADDED = false → s.MSG = Memory.ofBytesAt 0 m → s.LEN = m.length →
    m.length ≤ s.MAXLEN.val →
    exec .pad s = .next { s with MSG := Memory.ofBytesAt 0 (pad m), LEN := (pad m).length, PADDED := true }

/-- R164: EXPAND writes the schedule of the 64 bytes of block `BLK`, moves to `Expanded`, writes nothing else;
elsewhere it is refused. -/
def Obligations.ExpandWritesTheSchedule : Prop :=
  encode .expand = 0x500#12 ∧
  ∀ s : State,
    (∀ B : Vector Byte 64,
      s.PADDED = true → s.BLK < s.LEN / 64 → s.PHASE = .Initialized ∨ s.PHASE = .Compressed →
      (∀ (k : Nat) (h : k < 64), s.MSG.read (64 * s.BLK + k) = some B[k]) →
      exec .expand s = .next { s with W := some (expand B), PHASE := .Expanded }) ∧
    (s.RESET_POLICY = .required →
      ¬ (s.PADDED = true ∧ s.BLK < s.LEN / 64 ∧ (s.PHASE = .Initialized ∨ s.PHASE = .Compressed)) →
      exec .expand s = .refused .outOfSequence)

/-- R178: `H <- compress(H, W)`, `BLK` advanced, `W` and `a .. h` discarded, `Compressed`, nothing else written;
elsewhere it is refused. -/
def Obligations.CompressFoldsTheBlock : Prop :=
  encode .compress = 0x600#12 ∧
  ∀ s : State,
    (∀ (Hin : Vector Word 8) (w : Vector Word 64),
      s.PHASE = .Expanded → s.H = some Hin → s.W = some w →
      exec .compress s = .next
        { s with H := some (compress Hin w), BLK := s.BLK + 1, W := none, vars := none, PHASE := .Compressed }) ∧
    (s.RESET_POLICY = .required → s.PHASE ≠ .Expanded → exec .compress s = .refused .outOfSequence)

/-- R201: FINALIZE writes `serialize(H)` into `DIGEST`, moves to `Finalized`, returns the digest, writes nothing else;
elsewhere it is refused. That the returned digest is kept in `out` is the model's picture of the host (log 4). -/
def Obligations.FinalizeSerializesTheState : Prop :=
  encode .finalize = 0x700#12 ∧
  ∀ s : State,
    (∀ Hin : Vector Word 8,
      s.PHASE = .Compressed → s.PADDED = true → s.BLK = s.LEN / 64 → s.H = some Hin →
      exec .finalize s = .next
        { s with DIGEST := some (serialize Hin), PHASE := .Finalized, out := s.out ++ [serialize Hin] }) ∧
    (s.RESET_POLICY = .required → ¬ (s.PHASE = .Compressed ∧ s.PADDED = true ∧ s.BLK = s.LEN / 64) →
      exec .finalize s = .refused .outOfSequence)

/-- R213, R215: HASH on a buffer that holds `m`: the whole next state, whose digest is `hash(m)`; outside `Created` it
is refused. That the returned digest is kept in `out` is the model's picture of the host (log 4). -/
def Obligations.HashComputesTheHashFunction : Prop :=
  encode .hash = 0x800#12 ∧
  ∀ s : State,
    (∀ m : List Byte,
      s.PHASE = .Created → s.PADDED = false → s.BLK = 0 → s.MSG = Memory.ofBytesAt 0 m → s.LEN = m.length →
      m.length ≤ s.MAXLEN.val →
      exec .hash s = .next
        { s with
          H := some (foldBlocks IV (splitBlocks (blockCount m.length) (pad m))), vars := none, W := none,
          MSG := Memory.ofBytesAt 0 (pad m), LEN := (pad m).length, PADDED := true, BLK := blockCount m.length,
          DIGEST := some (hashMessage m), PHASE := .Finalized, out := s.out ++ [hashMessage m] }) ∧
    (s.RESET_POLICY = .required → s.PHASE ≠ .Created → exec .hash s = .refused .outOfSequence)

/-- R220: from any state, HASH and the streaming sequence with the message's number of blocks have one outcome. -/
def Obligations.HashEqualsTheStreamingSequence : Prop :=
  ∀ s : State, exec .hash s = runCommands (streamCommands (blockCount s.LEN)) s

/-- R215: `hash(m)` is the pseudo-instruction HASHMSG: RESET, the message byte by byte, HASH. From every state, whatever
came before, it runs, and its result `DIGEST` is the fold of `compress` over the blocks of `pad(m)` from the IV,
serialised; `hashMessage m` is that value. -/
def Obligations.HashmsgReturnsTheHash : Prop :=
  ∀ (s : State) (m : List Byte), m.length ≤ s.MAXLEN.val →
    ∃ (is : List Instr) (t : State), expansion (.hashmsg m) = some is ∧ is = .reset :: (m.map .append ++ [.hash]) ∧
      runCommands is s = .next t ∧ t.PHASE = .Finalized ∧ t.DIGEST = some (hashMessage m) ∧
      hashMessage m = serialize ((splitBlocks (blockCount m.length) (pad m)).foldl
        (fun Hacc B => compress Hacc (expand B)) IV)

/-- The model's choice (log 6) where the spec gives no semantics: under `RESET_POLICY = automatic` every command but
RESET is refused in `Finalized`, by a name of its own. -/
def Obligations.AutomaticPolicyIsRefused : Prop :=
  ∀ (s : State) (i : Instr), s.PHASE = .Finalized → s.RESET_POLICY = .automatic → i ≠ .reset →
    exec i s = .refused .resetPolicyUnspecified

/-! ## Micro-operations -/

/-- R174, R23: LOADVARS copies `H[0..7]` to `a .. h` and writes nothing else. -/
def Obligations.LoadvarsCopiesTheStateWords : Prop :=
  ∀ (s : State) (Hin : Vector Word 8), s.H = some Hin →
    loadVars s = .next { s with
      vars := some { a := Hin[0], b := Hin[1], c := Hin[2], d := Hin[3],
                     e := Hin[4], f := Hin[5], g := Hin[6], h := Hin[7] } }

/-- R175: one round, from the old `a .. h`, `K[i]` and `W[i]`; it writes `a .. h` and nothing else. -/
def Obligations.RoundUpdatesTheWorkingVariables : Prop :=
  ∀ (s : State) (i : Fin 64) (v : Vars) (w : Vector Word 64), s.vars = some v → s.W = some w →
    ∃ (T1 T2 : Word) (u : Vars),
      T1.toNat = (v.h.toNat + (Sigma1 v.e).toNat + (ch v.e v.f v.g).toNat + (kLookup i).toNat + w[i].toNat) % 2 ^ 32 ∧
      T2.toNat = ((Sigma0 v.a).toNat + (maj v.a v.b v.c).toNat) % 2 ^ 32 ∧
      u.a.toNat = (T1.toNat + T2.toNat) % 2 ^ 32 ∧ u.b = v.a ∧ u.c = v.b ∧ u.d = v.c ∧
      u.e.toNat = (v.d.toNat + T1.toNat) % 2 ^ 32 ∧ u.f = v.e ∧ u.g = v.f ∧ u.h = v.g ∧
      roundOp i s = .next { s with vars := some u }

/-- R132: ADDBLOCK adds lane by lane modulo 2^32, no carry between lanes, and writes nothing else. -/
def Obligations.AddblockAddsLaneByLane : Prop :=
  ∀ (s : State) (Hin delta : Vector Word 8), s.H = some Hin →
    ∃ Hout : Vector Word 8, addBlock delta s = .next { s with H := some Hout } ∧
      ∀ (i : Nat) (h : i < 8), Hout[i].toNat = (Hin[i].toNat + delta[i].toNat) % 2 ^ 32

/-- R176, R177: `compress` is LOADVARS, the 64 rounds in increasing order, each from the working variables the one before
left and from its own `K[i]` and `w[i]`, and the addition to the state words from before the block. -/
def Obligations.CompressRunsTheRoundsInOrder : Prop :=
  ∀ (Hin : Vector Word 8) (w : Vector Word 64), ∃ v : Nat → Vars,
    v 0 = { a := Hin[0], b := Hin[1], c := Hin[2], d := Hin[3], e := Hin[4], f := Hin[5], g := Hin[6], h := Hin[7] } ∧
    (∀ i : Fin 64, ∃ T1 T2 : Word,
      T1.toNat = ((v i).h.toNat + (Sigma1 (v i).e).toNat + (ch (v i).e (v i).f (v i).g).toNat +
        (kLookup i).toNat + w[i].toNat) % 2 ^ 32 ∧
      T2.toNat = ((Sigma0 (v i).a).toNat + (maj (v i).a (v i).b (v i).c).toNat) % 2 ^ 32 ∧
      (v (i + 1)).a.toNat = (T1.toNat + T2.toNat) % 2 ^ 32 ∧ (v (i + 1)).b = (v i).a ∧ (v (i + 1)).c = (v i).b ∧
      (v (i + 1)).d = (v i).c ∧ (v (i + 1)).e.toNat = ((v i).d.toNat + T1.toNat) % 2 ^ 32 ∧
      (v (i + 1)).f = (v i).e ∧ (v (i + 1)).g = (v i).f ∧ (v (i + 1)).h = (v i).g) ∧
    ∀ (k : Nat) (h : k < 8), (compress Hin w)[k].toNat =
      (Hin[k].toNat + [(v 64).a, (v 64).b, (v 64).c, (v 64).d, (v 64).e, (v 64).f, (v 64).g, (v 64).h][k].toNat) % 2 ^ 32

/-- R21, U2, U3, log 8: where the model faults: a read of an `undefined` register ("a fault of the model"), and, by the
model's choice (log 8), an access outside the domain of MemRead or MemWrite. No state that meets the invariant does
so (NoFaultFromTheInvariant). -/
def Obligations.ModelFaultsWhereNothingIsDefined : Prop :=
  (∀ s : State, s.PHASE = .Expanded → s.H = none → exec .compress s = .fault (.undefinedRead .H)) ∧
  (∀ (s : State) (Hin : Vector Word 8), s.PHASE = .Expanded → s.H = some Hin → s.W = none →
    exec .compress s = .fault (.undefinedRead .W)) ∧
  (∀ (s : State) (i : Fin 64), s.vars = none → roundOp i s = .fault (.undefinedRead .vars)) ∧
  (∀ s : State, s.PHASE = .Compressed → s.PADDED = true → s.BLK = s.LEN / 64 → s.H = none →
    exec .finalize s = .fault (.undefinedRead .H)) ∧
  (∀ s : State, s.PHASE = .Finalized → s.DIGEST = none → digestPort s = .fault (.undefinedRead .DIGEST)) ∧
  (∀ (s : State) (addr n : Nat), ¬ ((n = 1 ∨ n = 4) ∧ addr + n ≤ s.LEN) →
    memRead s addr n = .fault (.readDomain addr n)) ∧
  (∀ (s : State) (addr n v : Nat), ¬ ((n = 1 ∨ n = 8) ∧ addr = s.LEN ∧ v < 256 ^ n) →
    memWrite addr n v s = .fault (.writeDomain addr n v))

/-! ## The sequencer as a whole -/

/-- R219: in every state that meets the invariant ("the seven columns are all the reachable states"), and for every
command, the command runs where the table has `ok`, and elsewhere is refused with the table's reason; a refusal has no
next state. -/
def Obligations.LegalityTableDecidesEveryCommand : Prop :=
  ∀ (s : State) (i : Instr), s.Inv →
    (legality i.mnemonic s.column = .ok → ∃ t, exec i s = .next t) ∧
    (legality i.mnemonic s.column = .okIfRoom →
      (s.LEN < s.MAXLEN.val → ∃ t, exec i s = .next t) ∧
      (¬ s.LEN < s.MAXLEN.val → exec i s = .refused .capacity)) ∧
    (legality i.mnemonic s.column = .refuse → s.RESET_POLICY = .required → exec i s = .refused .outOfSequence)

/-- R210: every command that runs makes one of the table's transitions, under the table's condition. -/
def Obligations.TransitionsFollowTheStateMachine : Prop :=
  ∀ (s t : State) (i : Instr), exec i s = .next t →
    t.PHASE = phaseAfter i.mnemonic ∧
    (i = .reset ∨
     s.PHASE = .Created ∧ ((∃ imm8, i = .append imm8 ∧ s.LEN < s.MAXLEN.val) ∨ i = .init ∨ i = .hash) ∨
     s.PHASE = .Initialized ∧ (i = .pad ∧ s.PADDED = false ∧ t.PADDED = true ∨
       i = .expand ∧ s.PADDED = true ∧ s.BLK < s.LEN / 64) ∨
     s.PHASE = .Expanded ∧ i = .compress ∧ t.BLK = s.BLK + 1 ∨
     s.PHASE = .Compressed ∧ s.PADDED = true ∧
       (i = .expand ∧ s.BLK < s.LEN / 64 ∨ i = .finalize ∧ s.BLK = s.LEN / 64))

/-- R37, R31: every step keeps the invariant. -/
def Obligations.StepKeepsTheInvariant : Prop :=
  ∀ s t : State, s.Inv → step s = .next t → t.Inv

/-- R37: the reset state meets the invariant. -/
def Obligations.ResetMeetsTheInvariant : Prop := State.reset.Inv

/-- R21, R240: from a state that meets the invariant no step faults; every read the legality rules let through is of a
register that holds a value. -/
def Obligations.NoFaultFromTheInvariant : Prop :=
  ∀ (s : State) (f : Fault), s.Inv → step s ≠ .fault f

/-- R215, R214: every step keeps the meaning of the state: `H` is the chaining value of the first `BLK` blocks of the
padded message in increasing index, `W` the schedule of block `BLK`, `DIGEST` the hash of the message. -/
def Obligations.StepKeepsTheMeaning : Prop :=
  ∀ s t : State, s.Inv → s.Meaning → step s = .next t → t.Meaning

/-- The reset state has that meaning (nothing is computed yet). -/
def Obligations.ResetHasTheMeaning : Prop := State.reset.Meaning

/-- R36: "no partial digest is observable": whatever the host does, every digest it is ever handed is the hash of a
message. (`out` is the model's record of what the host is handed, log 4.) -/
def Obligations.EveryDigestHandedOutIsAHash : Prop :=
  ∀ s t : State, s.Inv → s.Meaning → (∀ d ∈ s.out, s.Genuine d) → step s = .next t → ∀ d ∈ t.out, t.Genuine d

/-- R272, R243: a message within capacity can always be hashed: the streaming sequence runs to its end from every
`Created` state that meets the invariant. -/
def Obligations.StreamingSequenceIsSafe : Prop :=
  ∀ s : State, s.Inv → s.PHASE = .Created → Safe (streamCommands (blockCount s.LEN)) s

/-- R60: no byte once written is changed or removed except by RESET, which empties the buffer; and once padded the
buffer is frozen. -/
def Obligations.MessageIsAppendOnlyThenFrozen : Prop :=
  ∀ (s t : State) (i : Instr), exec i s = .next t →
    (i = .reset → t.MSG = [] ∧ t.LEN = 0) ∧
    (i ≠ .reset → s.LEN ≤ t.LEN ∧ ∀ a, a < s.LEN → t.MSG.read a = s.MSG.read a) ∧
    (i ≠ .reset → s.Inv → s.PADDED = true → t.MSG = s.MSG ∧ t.LEN = s.LEN)

/-- R133: the writers of `H` are INIT and ADDBLOCK (inside COMPRESS, and both inside HASH), and RESET empties it; the
rounds leave it alone. -/
def Obligations.OnlyInitAndAddblockWriteH : Prop :=
  (∀ (s t : State) (i : Instr), exec i s = .next t →
    i = .reset ∨ i = .init ∨ i = .compress ∨ i = .hash ∨ t.H = s.H) ∧
  (∀ (n : Nat) (h : n ≤ 64) (s t : State), rounds n h s = .next t →
    t = { s with vars := t.vars })

/-- R202: only FINALIZE (also inside HASH) writes `DIGEST`, RESET makes it `undefined`, nothing else leaves `Finalized`,
and there the host reads the same 32 bytes any number of times, the engine unchanged. -/
def Obligations.DigestIsWrittenOnceAndKept : Prop :=
  (∀ (s t : State) (i : Instr), exec i s = .next t →
    (i = .reset → t.DIGEST = none) ∧ (i ≠ .reset → i ≠ .finalize → i ≠ .hash → t.DIGEST = s.DIGEST)) ∧
  (∀ (s t : State) (i : Instr), s.PHASE = .Finalized → exec i s = .next t → i = .reset) ∧
  (∀ (s : State) (d : Digest), s.PHASE = .Finalized → s.DIGEST = some d →
    digestPort s = .next d ∧ ∃ t, hostRead s = .next t ∧ t = { s with out := t.out })

/-- R25, R32: the writers of `BLK` and `PADDED`. HASH writes what the commands inside it write. -/
def Obligations.BlockIndexAndPaddedFlagWriters : Prop :=
  ∀ (s t : State) (i : Instr), exec i s = .next t →
    (i = .reset → t.BLK = 0 ∧ t.PADDED = false) ∧
    (i = .compress → t.BLK = s.BLK + 1) ∧
    (i = .pad → t.PADDED = true) ∧
    (i ≠ .reset → i ≠ .compress → i ≠ .hash → t.BLK = s.BLK) ∧
    (i ≠ .reset → i ≠ .pad → i ≠ .hash → t.PADDED = s.PADDED) ∧
    (i = .hash → t.PADDED = true ∧ t.BLK = t.LEN / 64)

/-- R20, R7, R66: no command writes the parameters or the host's side of the command port; of the commands only
FINALIZE and HASH hand the host anything, one digest, the new `DIGEST`; and a read of the digest port in `Finalized`
hands it `DIGEST` once (R56), in the step that takes the read off the port too. That what is handed over is appended to
`out`, and that the host's acts wait in `port`, are the model's choices (logs 4, 2). -/
def Obligations.CommandsLeaveParametersAndPortAlone : Prop :=
  (∀ (s t : State) (i : Instr), exec i s = .next t →
    t.MAXLEN = s.MAXLEN ∧ t.RESET_POLICY = s.RESET_POLICY ∧ t.port = s.port ∧
    (i ≠ .finalize → i ≠ .hash → t.out = s.out) ∧
    (i = .finalize ∨ i = .hash → ∃ d, t.DIGEST = some d ∧ t.out = s.out ++ [d])) ∧
  (∀ (s : State) (d : Digest), s.PHASE = .Finalized → s.DIGEST = some d →
    hostRead s = .next { s with out := s.out ++ [d] }) ∧
  (∀ (s : State) (d : Digest) (rest : List HostInput),
    s.port = .readDigest :: rest → s.PHASE = .Finalized → s.DIGEST = some d →
    step s = .next { s with port := rest, out := s.out ++ [d] })

/-! ## Memory (20_memory.md) -/

/-- R53: MemRead gives the bytes as one number, the lowest address most significant; it is defined where
`n in {1, 4}` and `addr + n <= LEN`, and has no side effect (it answers no state). -/
def Obligations.MemReadIsBigEndian : Prop :=
  (∀ (s : State) (addr : Nat) (b : Byte), addr + 1 ≤ s.LEN → s.MSG.read addr = some b →
    memRead s addr 1 = .next b.toNat) ∧
  (∀ (s : State) (addr : Nat) (b0 b1 b2 b3 : Byte), addr + 4 ≤ s.LEN →
    s.MSG.read addr = some b0 → s.MSG.read (addr + 1) = some b1 →
    s.MSG.read (addr + 2) = some b2 → s.MSG.read (addr + 3) = some b3 →
    memRead s addr 4 = .next (b0.toNat * 256 ^ 3 + b1.toNat * 256 ^ 2 + b2.toNat * 256 + b3.toNat))

/-- R54: MemWrite appends `v` as `n` big-endian bytes, moves `LEN`, and writes nothing else; it is defined where
`n in {1, 8}`, `addr = LEN`, `v < 256^n`. -/
def Obligations.MemWriteAppendsBigEndian : Prop :=
  ∀ (s : State) (n v : Nat), n = 1 ∨ n = 8 → v < 256 ^ n →
    ∃ t : State, memWrite s.LEN n v s = .next t ∧
      t = { s with MSG := t.MSG, LEN := s.LEN + n } ∧
      (∀ k, k < n → t.MSG.read (s.LEN + k) = some (BitVec.ofNat 8 (v >>> (8 * (n - 1 - k))))) ∧
      ∀ a, a < s.LEN ∨ s.LEN + n ≤ a → t.MSG.read a = s.MSG.read a

/-- R56: the digest port: 32 bytes in index order with `DIGEST[0]` the top byte of `H[0]` and `DIGEST[31]` the bottom
byte of `H[7]`; the bus; a read in `Finalized` gives `DIGEST` and has no side effect on the engine (only the model's
`out` records it, log 4); a read elsewhere is refused. -/
def Obligations.DigestPortFollowsR56 : Prop :=
  (∀ Hin : Vector Word 8, (serialize Hin)[0] = Hin[0].extractLsb' 24 8 ∧ (serialize Hin)[31] = Hin[7].extractLsb' 0 8) ∧
  (∀ (d : Digest) (k : Nat) (h : k < 32), (digestBus d).extractLsb' (248 - 8 * k) 8 = d[k]) ∧
  (∀ (s : State) (d : Digest), s.PHASE = .Finalized → s.DIGEST = some d →
    digestPort s = .next d ∧ ∃ t, hostRead s = .next t ∧ t = { s with out := t.out }) ∧
  (∀ s : State, s.PHASE ≠ .Finalized →
    digestPort s = .refused .digestNotValid ∧ hostRead s = .refused .digestNotValid)

/-! ## The functions -/

/-- R141: the zero count is the least one that works, and what follows for the padded length and the block count. -/
def Obligations.ZeroCountIsLeast : Prop :=
  ∀ m : List Byte,
    (zeroCount m.length : Int) = (55 - (m.length : Int)) % 64 ∧
    8 * (m.length + 1 + zeroCount m.length) % 512 = 448 ∧
    (∀ k, 8 * (m.length + 1 + k) % 512 = 448 → zeroCount m.length ≤ k) ∧
    zeroCount m.length ≤ 63 ∧
    (pad m).length = m.length + 9 + zeroCount m.length ∧
    (pad m).length % 64 = 0 ∧
    m.length + 9 ≤ (pad m).length ∧ (pad m).length ≤ m.length + 72 ∧
    (pad m).length / 64 = (m.length + 8) / 64 + 1 ∧ blockCount m.length = (m.length + 8) / 64 + 1 ∧
    (m.length % 64 ≤ 55 ↔ (pad m).length / 64 = m.length / 64 + 1) ∧
    (m.length % 64 ≥ 56 ↔ (pad m).length / 64 = m.length / 64 + 2)

/-- R144: the printed lengths, with zero count, padded length, block count and length field. -/
def Obligations.PaddingTableOfCornerCases : Prop :=
  ∀ row ∈ [(0, 55, 64, 1, 0x0), (1, 54, 64, 1, 0x8), (3, 52, 64, 1, 0x18), (54, 1, 64, 1, 0x1b0),
      (55, 0, 64, 1, 0x1b8), (56, 63, 128, 2, 0x1c0), (57, 62, 128, 2, 0x1c8), (63, 56, 128, 2, 0x1f8),
      (64, 55, 128, 2, 0x200), (65, 54, 128, 2, 0x208), (119, 0, 128, 2, 0x3b8), (120, 63, 192, 3, 0x3c0),
      (1000000, 55, 1000064, 15626, 0x7a1200)],
    zeroCount row.1 = row.2.1 ∧ row.1 + 9 + zeroCount row.1 = row.2.2.1 ∧ blockCount row.1 = row.2.2.2.1 ∧
    ∀ m : List Byte, m.length = row.1 → (pad m).drop ((pad m).length - 8) = bytesBe64 (BitVec.ofNat 64 row.2.2.2.2)

/-- R147: `pad` is injective on the messages the machine admits, and the last 8 bytes give the length. -/
def Obligations.PadIsInjective : Prop :=
  ∀ m m' : List Byte, m.length < 2 ^ 61 → m'.length < 2 ^ 61 →
    (pad m = pad m' → m = m') ∧
    (∀ v : BitVec 64, (pad m).drop ((pad m).length - 8) = bytesBe64 v → v.toNat = 8 * m.length)

/-- R52, R214: block `j` is bytes `64*j .. 64*j + 63`, the blocks in increasing index. -/
def Obligations.BlocksAreSlicesInOrder : Prop :=
  ∀ (p : List Byte) (n : Nat), 64 * n ≤ p.length →
    (splitBlocks n p).length = n ∧
    ∀ j, j < n → ∃ B : Vector Byte 64, (splitBlocks n p)[j]? = some B ∧
      ∀ (k : Nat) (h : k < 64), p[64 * j + k]? = some B[k]

/-- R162, R163: the first sixteen words of a schedule and the recurrence of the other forty-eight. -/
def Obligations.ScheduleFollowsTheRecurrence : Prop :=
  ∀ B : Vector Byte 64,
    (∀ (i : Nat) (h : i < 16),
      (expand B)[i] = be32 B[4 * i] B[4 * i + 1] B[4 * i + 2] B[4 * i + 3]) ∧
    (∀ (i : Nat) (h : i < 64), 16 ≤ i →
      (expand B)[i].toNat =
        ((expand B)[i - 16].toNat + (sigma0 (expand B)[i - 15]).toNat + (expand B)[i - 7].toNat +
          (sigma1 (expand B)[i - 2]).toNat) % 2 ^ 32)

/-- R55: the length field written by PAD is read by EXPAND as `W[14]`, its high half, and `W[15]`, its low half, of the
last block. -/
def Obligations.LastBlockCarriesTheLength : Prop :=
  ∀ (m : List Byte) (B : Vector Byte 64), m.length < 2 ^ 61 →
    (splitBlocks (blockCount m.length) (pad m)).getLast? = some B →
    (expand B)[14].toNat = 8 * m.length / 2 ^ 32 ∧ (expand B)[15].toNat = 8 * m.length % 2 ^ 32

/-- R171, R173: `ch` selects bit by bit, `maj` is the bitwise majority; their corner cases. -/
def Obligations.ChooseAndMajority : Prop :=
  (∀ (x y z : Word) (j : Nat), (ch x y z).getLsbD j = (if x.getLsbD j then y.getLsbD j else z.getLsbD j)) ∧
  (∀ x y z : Word, ch x y z = (x &&& y) ||| (not32 x &&& z)) ∧
  (∀ y z : Word, ch 0 y z = z ∧ ch 0xFFFFFFFF y z = y ∧ ch z y y = y) ∧
  (∀ (x y z : Word) (j : Nat), (maj x y z).getLsbD j =
    decide (2 ≤ (x.getLsbD j).toNat + (y.getLsbD j).toNat + (z.getLsbD j).toNat)) ∧
  (∀ x y z : Word, maj x y z = maj y x z ∧ maj x y z = maj x z y ∧ maj x x z = x ∧
    maj 0 y z = y &&& z ∧ maj 0xFFFFFFFF y z = y ||| z)

/-- R160, R161, R170, R172: the four sigma functions bit by bit: bit `j` is the exclusive-or of the bits the rotations
bring to place `j`, the third term of the small ones a shift. -/
def Obligations.SigmaFunctionsBitByBit : Prop :=
  ∀ (x : Word) (j : Nat), j < 32 →
    (sigma0 x).getLsbD j = ((x.getLsbD ((j + 7) % 32) ^^ x.getLsbD ((j + 18) % 32)) ^^ x.getLsbD (j + 3)) ∧
    (sigma1 x).getLsbD j = ((x.getLsbD ((j + 17) % 32) ^^ x.getLsbD ((j + 19) % 32)) ^^ x.getLsbD (j + 10)) ∧
    (Sigma0 x).getLsbD j =
      ((x.getLsbD ((j + 2) % 32) ^^ x.getLsbD ((j + 13) % 32)) ^^ x.getLsbD ((j + 22) % 32)) ∧
    (Sigma1 x).getLsbD j =
      ((x.getLsbD ((j + 6) % 32) ^^ x.getLsbD ((j + 11) % 32)) ^^ x.getLsbD ((j + 25) % 32))

/-- R105: for every integer amount, bit `j` of `rotr(x, n)` is bit `(j + m) mod 32` of `x` with `m` the floor
remainder of `n` by 32. -/
def Obligations.RotateMovesEveryBit : Prop :=
  ∀ (x : Word) (n : Int) (j : Nat), j < 32 →
    (rotr x n).getLsbD j = x.getLsbD ((j + (n % 32).toNat) % 32)

/-- R106: the corner cases of `rotr`. -/
def Obligations.RotateCornerCases : Prop :=
  ∀ (x : Word) (n : Int),
    rotr x 0 = x ∧ rotr x 32 = x ∧ rotr x (-32) = x ∧ rotr x (-1) = rotr x 31 ∧ rotr x (n + 32) = rotr x n ∧
    rotr 0 n = 0 ∧ rotr 0xFFFFFFFF n = 0xFFFFFFFF ∧
    rotr 0x00000001 1 = 0x80000000 ∧ rotr 0x12345678 8 = 0x78123456 ∧ rotr 0x12345678 (-1) = 0x2468ACF0 ∧
    rotr 0x12345678 39 = 0xF02468AC ∧ rotr 0x12345678 (-25) = 0xF02468AC

/-- R101, R103, R104: addition wraps, the complement is `2^32 - 1 - x`, the shift is a floor division. -/
def Obligations.WordPrimitivesAsIntegers : Prop :=
  ∀ (x y : Word) (n : Nat), n ≤ 31 →
    (add32 x y).toNat = (x.toNat + y.toNat) % 2 ^ 32 ∧ (not32 x).toNat = 2 ^ 32 - 1 - x.toNat ∧
    (shr x n).toNat = x.toNat / 2 ^ n

/-- R108: the values of `be32`, `bytes_be32` and `bytes_be64`, and that the first two are inverse to each other;
MemWrite's eight bytes of a value are `bytes_be64` of it (R54). -/
def Obligations.BigEndianGroupingInverts : Prop :=
  (∀ b0 b1 b2 b3 : Byte, (be32 b0 b1 b2 b3).toNat =
    b0.toNat * 2 ^ 24 + b1.toNat * 2 ^ 16 + b2.toNat * 2 ^ 8 + b3.toNat) ∧
  (∀ x : Word, bytesBe32 x =
    [x.extractLsb' 24 8, x.extractLsb' 16 8, x.extractLsb' 8 8, x.extractLsb' 0 8]) ∧
  (∀ v : BitVec 64, bytesBe64 v =
    [v.extractLsb' 56 8, v.extractLsb' 48 8, v.extractLsb' 40 8, v.extractLsb' 32 8,
     v.extractLsb' 24 8, v.extractLsb' 16 8, v.extractLsb' 8 8, v.extractLsb' 0 8]) ∧
  (∀ b0 b1 b2 b3 : Byte, bytesBe32 (be32 b0 b1 b2 b3) = [b0, b1, b2, b3]) ∧
  (∀ (x : Word) (b0 b1 b2 b3 : Byte), bytesBe32 x = [b0, b1, b2, b3] → be32 b0 b1 b2 b3 = x) ∧
  (∀ v : Nat, v < 2 ^ 64 → beBytes 8 v = bytesBe64 (BitVec.ofNat 64 v))

/-- R200: byte `4i + j` of a serialised state is `Hin[i][31-8j : 24-8j]`. -/
def Obligations.SerializeOrdersTheBytes : Prop :=
  ∀ (Hin : Vector Word 8) (i j : Nat) (hi : i < 8) (hj : j < 4),
    (serialize Hin)[4 * i + j].toNat = Hin[i].toNat / 2 ^ (24 - 8 * j) % 256

/-- R120, R130: the constants are the first 32 fractional bits of the cube roots of the first 64 primes, and of the
square roots of the first 8. -/
def Obligations.ConstantsAreRootFractions : Prop :=
  (∀ i : Fin 64, ∃ c : Nat,
    let p := [2, 3, 5, 7, 11, 13, 17, 19, 23, 29, 31, 37, 41, 43, 47, 53].append
      ([59, 61, 67, 71, 73, 79, 83, 89, 97, 101, 103, 107, 109, 113, 127, 131].append
      ([137, 139, 149, 151, 157, 163, 167, 173, 179, 181, 191, 193, 197, 199, 211, 223].append
      [227, 229, 233, 239, 241, 251, 257, 263, 269, 271, 277, 281, 283, 293, 307, 311]))
    c ^ 3 ≤ p.getD i 0 * 2 ^ 96 ∧ p.getD i 0 * 2 ^ 96 < (c + 1) ^ 3 ∧ (kLookup i).toNat = c % 2 ^ 32) ∧
  (∀ i : Fin 8, ∃ c : Nat,
    c ^ 2 ≤ [2, 3, 5, 7, 11, 13, 17, 19].getD i 0 * 2 ^ 64 ∧
    [2, 3, 5, 7, 11, 13, 17, 19].getD i 0 * 2 ^ 64 < (c + 1) ^ 2 ∧ IV[i].toNat = c % 2 ^ 32)

/-! ## The host's side -/

/-- R203: two lower-case hexadecimal digits a byte, the high nibble first, nothing between. -/
def Obligations.HexHelperWritesTwoDigitsAByte : Prop :=
  ∀ s : List Byte,
    (hexChars s).length = 2 * s.length ∧
    (∀ (i : Nat) (h : i < s.length),
      (hexChars s)[2 * i]? = "0123456789abcdef".toList[s[i].toNat / 16]? ∧
      (hexChars s)[2 * i + 1]? = "0123456789abcdef".toList[s[i].toNat % 16]?) ∧
    (toHexString s).toList = hexChars s

/-- R88: the expansions of the pseudo-instructions; a LOADS text with a character outside `0x20 .. 0x7E` has none. -/
def Obligations.PseudoInstructionsExpand : Prop :=
  (∀ bs : List Byte, expansion (.load bs) = some (bs.map .append)) ∧
  (∀ text : List Nat, (∀ c ∈ text, 0x20 ≤ c ∧ c ≤ 0x7E) →
    expansion (.loads text) = some (text.map fun c => .append (BitVec.ofNat 8 c))) ∧
  (∀ text : List Nat, (∃ c ∈ text, c < 0x20 ∨ 0x7E < c) → expansion (.loads text) = none) ∧
  (∀ bs : List Byte, expansion (.hashmsg bs) = some (.reset :: (bs.map .append ++ [.hash]))) ∧
  expansion .block = some [.expand, .compress]

/-- R87: a line assembles exactly when APPEND has one number in `0 .. 255` and every other command none, to the
command it names. -/
def Obligations.SourceLinesAssemble : Prop :=
  ∀ (l : SourceLine) (i : Instr), assemble l = some i ↔
    l.mnemonic = i.mnemonic ∧
    ((l.mnemonic = .APPEND ∧ ∃ n, l.operand = some n ∧ n ≤ 255 ∧ (operandByte i).toNat = n) ∨
     (l.mnemonic ≠ .APPEND ∧ l.operand = none))

/-- R216: the byte of a generic element. -/
def Obligations.ElementsConvertToBytes : Prop :=
  (∀ u : Nat, u ≤ 255 → ∃ b : Byte, elementByte (.unsigned u) = some b ∧ b.toNat = u) ∧
  (∀ s : Int, -128 ≤ s → s ≤ 127 → ∃ b : Byte, elementByte (.signed s) = some b ∧ (b.toNat : Int) = s % 256 ∧ b.toInt = s) ∧
  (∀ c : Nat, c ≤ 255 → ∃ b : Byte, elementByte (.character c) = some b ∧ b.toNat = c)
end

