-- ==== Sys2Proof/Laws/Memory.lean ====
section
/-! SUPPORT. The laws of the message buffer: read after write, the canonical form, and buffers that hold exactly a
sequence of bytes. -/

namespace Sys2Proof.Machine

/-- A read after a write. -/
theorem read_write (m : Memory) (a x : Nat) (b : Byte) :
    (m.write a b).read x = if x = a then some b else m.read x := by
  induction m with
  | nil => simp [Memory.write, Memory.read, eq_comm]
  | cons c m ih =>
    obtain ⟨k, d⟩ := c
    simp only [Memory.write]
    split
    · simp only [Memory.read, eq_comm]
    · split
      · next h => subst h; simp only [Memory.read]; split <;> simp_all [eq_comm]
      · simp only [Memory.read, ih]; split <;> split <;> simp_all

/-- A read after a run of writes. -/
theorem read_writeBytes (m : Memory) (a x : Nat) (bs : List Byte) :
    (m.writeBytes a bs).read x = if a ≤ x ∧ x < a + bs.length then bs[x - a]? else m.read x := by
  induction bs generalizing m a with
  | nil => simp only [Memory.writeBytes, List.length_nil]; rw [if_neg (by omega)]
  | cons b bs ih =>
    rw [Memory.writeBytes, ih, List.length_cons, read_write]
    by_cases h : x = a
    · subst h; rw [if_neg (by omega), if_pos (by omega)]; simp
    · by_cases h1 : a + 1 ≤ x ∧ x < a + 1 + bs.length
      · rw [if_pos h1, if_pos (by omega), show x - a = (x - (a + 1)) + 1 by omega, List.getElem?_cons_succ]
      · rw [if_neg h1, if_neg h, if_neg (by omega)]

/-- The addresses a write leaves. -/
theorem mem_write {m : Memory} {a : Nat} {b : Byte} {c : Host.Cell} (h : c ∈ m.write a b) : c = (a, b) ∨ c ∈ m := by
  induction m with
  | nil => simpa [Memory.write] using h
  | cons d m ih =>
    obtain ⟨k, e⟩ := d
    simp only [Memory.write] at h
    split at h
    · simpa using h
    · split at h
      · rcases List.mem_cons.1 h with h | h
        · exact .inl h
        · exact .inr (List.mem_cons_of_mem _ h)
      · rcases List.mem_cons.1 h with h | h
        · exact .inr (h ▸ List.mem_cons_self)
        · exact (ih h).imp id (List.mem_cons_of_mem _)

/-- A write keeps the canonical form. -/
theorem write_wf {m : Memory} (hm : m.wf) (a : Nat) (b : Byte) : (m.write a b).wf := by
  induction m with
  | nil => simp [Memory.write]
  | cons d m ih =>
    obtain ⟨k, e⟩ := d
    obtain ⟨h1, h2⟩ := List.pairwise_cons.1 hm
    simp only [Memory.write]
    split
    · next h =>
      refine List.pairwise_cons.2 ⟨fun c hc => ?_, hm⟩
      rcases List.mem_cons.1 hc with rfl | hc
      · exact h
      · exact h.trans (h1 c hc)
    · split
      · next h => subst h; exact List.pairwise_cons.2 ⟨h1, h2⟩
      · refine List.pairwise_cons.2 ⟨fun c hc => ?_, ih h2⟩
        rcases mem_write hc with rfl | hc
        · show k < a; omega
        · exact h1 c hc

/-- A run of writes keeps the canonical form. -/
theorem writeBytes_wf {m : Memory} (hm : m.wf) (a : Nat) (bs : List Byte) : (m.writeBytes a bs).wf := by
  induction bs generalizing m a with
  | nil => exact hm
  | cons b bs ih => exact ih (write_wf hm a b) (a + 1)

theorem writeBytes_append (m : Memory) (a : Nat) (bs cs : List Byte) :
    m.writeBytes a (bs ++ cs) = (m.writeBytes a bs).writeBytes (a + bs.length) cs := by
  induction bs generalizing m a with
  | nil => rfl
  | cons b bs ih =>
    rw [List.cons_append, Memory.writeBytes, ih, Memory.writeBytes, List.length_cons,
      show a + 1 + bs.length = a + (bs.length + 1) by omega]

@[simp] theorem bytes_ofBytesAt (a : Nat) (bs : List Byte) : (Memory.ofBytesAt a bs).bytes = bs := by
  induction bs generalizing a with
  | nil => rfl
  | cons b bs ih => simpa [Memory.ofBytesAt, Memory.bytes] using ih (a + 1)

@[simp] theorem length_ofBytesAt (a : Nat) (bs : List Byte) : (Memory.ofBytesAt a bs).length = bs.length := by
  induction bs generalizing a with
  | nil => rfl
  | cons b bs ih => simp [Memory.ofBytesAt, ih]

@[simp] theorem length_bytes (m : Memory) : m.bytes.length = m.length := List.length_map _

/-- What a buffer that holds exactly `bs` reads as. -/
theorem read_ofBytesAt (a x : Nat) (bs : List Byte) :
    (Memory.ofBytesAt a bs).read x = if a ≤ x then bs[x - a]? else none := by
  induction bs generalizing a with
  | nil => simp [Memory.ofBytesAt, Memory.read]
  | cons b bs ih =>
    rw [Memory.ofBytesAt, Memory.read, ih]
    by_cases h : a = x
    · subst h; simp
    · rw [if_neg h]
      by_cases h1 : a + 1 ≤ x
      · rw [if_pos h1, if_pos (by omega), show x - a = (x - (a + 1)) + 1 by omega, List.getElem?_cons_succ]
      · rw [if_neg h1, if_neg (by omega)]

@[simp] theorem read_ofBytes (x : Nat) (bs : List Byte) : (Memory.ofBytesAt 0 bs).read x = bs[x]? := by
  simp [read_ofBytesAt]

/-- The byte after the last: a write there appends. -/
theorem write_ofBytesAt (a : Nat) (bs : List Byte) (b : Byte) :
    (Memory.ofBytesAt a bs).write (a + bs.length) b = Memory.ofBytesAt a (bs ++ [b]) := by
  induction bs generalizing a with
  | nil => rfl
  | cons c bs ih =>
    have h := ih (a + 1)
    rw [show a + 1 + bs.length = a + (bs.length + 1) by omega] at h
    simp only [Memory.ofBytesAt, Memory.write, List.length_cons, List.cons_append]
    rw [if_neg (by omega), if_neg (by omega), h]

/-- A run of writes from the byte after the last appends. -/
theorem writeBytes_ofBytesAt (a : Nat) (bs cs : List Byte) :
    (Memory.ofBytesAt a bs).writeBytes (a + bs.length) cs = Memory.ofBytesAt a (bs ++ cs) := by
  induction cs generalizing bs with
  | nil => simp [Memory.writeBytes]
  | cons c cs ih =>
    have h := ih (bs ++ [c])
    rw [List.length_append, List.length_singleton, ← Nat.add_assoc, List.append_assoc] at h
    rw [Memory.writeBytes, write_ofBytesAt]
    exact h

theorem writeBytes_ofBytes (bs cs : List Byte) :
    (Memory.ofBytesAt 0 bs).writeBytes bs.length cs = Memory.ofBytesAt 0 (bs ++ cs) := by
  simpa using writeBytes_ofBytesAt 0 bs cs

/-- Such a buffer is in canonical form. -/
theorem ofBytesAt_wf (a : Nat) (bs : List Byte) : (Memory.ofBytesAt a bs).wf := by
  have key : ∀ (bs : List Byte) (a : Nat), ∀ c ∈ Memory.ofBytesAt a bs, a ≤ c.1 := by
    intro bs
    induction bs with
    | nil => intro a c hc; simp [Memory.ofBytesAt] at hc
    | cons b bs ih =>
      intro a c hc
      rcases List.mem_cons.1 hc with rfl | hc
      · exact Nat.le_refl _
      · exact Nat.le_of_succ_le (ih (a + 1) c hc)
  induction bs generalizing a with
  | nil => exact List.Pairwise.nil
  | cons b bs ih => exact List.pairwise_cons.2 ⟨fun c hc => key bs (a + 1) c hc, ih (a + 1)⟩

@[simp] theorem beBytes_length (n v : Nat) : (beBytes n v).length = n := by
  induction n with
  | zero => rfl
  | succ n ih => simp [beBytes, ih]

/-- Byte `k` of a MemWrite (R54). -/
theorem beBytes_getElem? (n v k : Nat) (h : k < n) :
    (beBytes n v)[k]? = some (BitVec.ofNat 8 (v >>> (8 * (n - 1 - k)))) := by
  induction n generalizing k with
  | zero => omega
  | succ n ih =>
    cases k with
    | zero => simp [beBytes]
    | succ k =>
      rw [beBytes, List.getElem?_cons_succ, ih k (by omega), show n + 1 - 1 - (k + 1) = n - 1 - k by omega]

/-- MemWrite of one byte stores that byte. -/
@[simp] theorem beBytes_one (b : Byte) : beBytes 1 b.toNat = [b] := by simp [beBytes]

end Sys2Proof.Machine
end

