-- ==== Sys2Proof/Laws/State.lean ====
section
/-! SUPPORT. One lemma per field of the named updates of State (`clear`, `withFetchWord`) and of the reset state. -/

namespace Sys2Proof.Machine

section clear
variable (s : State)
@[simp] theorem clear_H : (clear s).H = none := rfl
@[simp] theorem clear_vars : (clear s).vars = none := rfl
@[simp] theorem clear_W : (clear s).W = none := rfl
@[simp] theorem clear_MSG : (clear s).MSG = [] := rfl
@[simp] theorem clear_LEN : (clear s).LEN = 0 := rfl
@[simp] theorem clear_PHASE : (clear s).PHASE = .Created := rfl
@[simp] theorem clear_PADDED : (clear s).PADDED = false := rfl
@[simp] theorem clear_BLK : (clear s).BLK = 0 := rfl
@[simp] theorem clear_DIGEST : (clear s).DIGEST = none := rfl
@[simp] theorem clear_MAXLEN : (clear s).MAXLEN = s.MAXLEN := rfl
@[simp] theorem clear_RESET_POLICY : (clear s).RESET_POLICY = s.RESET_POLICY := rfl
@[simp] theorem clear_port : (clear s).port = s.port := rfl
@[simp] theorem clear_out : (clear s).out = s.out := rfl
end clear

section withFetchWord
variable (s : State) (nbits w : Nat)
@[simp] theorem withFetchWord_H : (s.withFetchWord nbits w).H = s.H := rfl
@[simp] theorem withFetchWord_vars : (s.withFetchWord nbits w).vars = s.vars := rfl
@[simp] theorem withFetchWord_W : (s.withFetchWord nbits w).W = s.W := rfl
@[simp] theorem withFetchWord_MSG : (s.withFetchWord nbits w).MSG = s.MSG := rfl
@[simp] theorem withFetchWord_LEN : (s.withFetchWord nbits w).LEN = s.LEN := rfl
@[simp] theorem withFetchWord_PHASE : (s.withFetchWord nbits w).PHASE = s.PHASE := rfl
@[simp] theorem withFetchWord_PADDED : (s.withFetchWord nbits w).PADDED = s.PADDED := rfl
@[simp] theorem withFetchWord_BLK : (s.withFetchWord nbits w).BLK = s.BLK := rfl
@[simp] theorem withFetchWord_DIGEST : (s.withFetchWord nbits w).DIGEST = s.DIGEST := rfl
@[simp] theorem withFetchWord_MAXLEN : (s.withFetchWord nbits w).MAXLEN = s.MAXLEN := rfl
@[simp] theorem withFetchWord_RESET_POLICY : (s.withFetchWord nbits w).RESET_POLICY = s.RESET_POLICY := rfl
@[simp] theorem withFetchWord_out : (s.withFetchWord nbits w).out = s.out := rfl
@[simp] theorem withFetchWord_port : (s.withFetchWord nbits w).port =
    .command ((tableWord nbits w).getD 0x000#12) :: s.port := rfl
end withFetchWord

/-- The phase after reset is the first of the source's machine (R24, R270). -/
@[simp] theorem reset_PHASE : State.reset.PHASE = .Created := rfl

/-- Clearing the reset state changes nothing (R271). -/
@[simp] theorem clear_reset : clear State.reset = State.reset := rfl

/-- The derived values of R33. -/
@[simp] theorem NBLK_padded {s : State} (h : s.PADDED = true) : s.NBLK = some (s.LEN / 64) := by
  simp [State.NBLK, h]

@[simp] theorem NBLK_unpadded {s : State} (h : s.PADDED = false) : s.NBLK = none := by
  simp [State.NBLK, h]

theorem NBLK_eq_some {s : State} {n : Nat} : s.NBLK = some n ↔ s.PADDED = true ∧ n = s.LEN / 64 := by
  cases h : s.PADDED <;> simp [State.NBLK, h, eq_comm]

theorem blockLeft_iff {s : State} : s.blockLeft = true ↔ s.PADDED = true ∧ s.BLK < s.LEN / 64 := by
  cases h : s.PADDED <;> simp [State.blockLeft, State.NBLK, h]

theorem DVALID_iff {s : State} : s.DVALID = true ↔ s.PHASE = .Finalized := by
  simp [State.DVALID]

end Sys2Proof.Machine
end

