-- ==== Sys2Proof/Laws/Ops.lean ====
section
/-! SUPPORT. What each shared operation can do, said once. -/

namespace Sys2Proof.Machine

section andThen
variable {α β γ : Type} (f : α → Host.Outcome β Fault Refusal) (g : β → Host.Outcome γ Fault Refusal)
@[simp] theorem andThen_next (a : α) : andThen (.next a) f = f a := rfl
@[simp] theorem andThen_fault (r : Fault) : andThen (.fault r) f = .fault r := rfl
@[simp] theorem andThen_refused (r : Refusal) : andThen (.refused r) f = .refused r := rfl

theorem andThen_assoc (o : Host.Outcome α Fault Refusal) :
    andThen (andThen o f) g = andThen o fun a => andThen (f a) g := by
  cases o <;> rfl

/-- A sequence answers a next state exactly when both parts do. -/
theorem andThen_eq_next {f : α → Host.Outcome β Fault Refusal} {o : Host.Outcome α Fault Refusal} {b : β} :
    andThen o f = .next b ↔ ∃ a, o = .next a ∧ f a = .next b := by
  cases o <;> simp

/-- A sequence faults in the first part or in the second. -/
theorem andThen_eq_fault {f : α → Host.Outcome β Fault Refusal} {o : Host.Outcome α Fault Refusal} {r : Fault} :
    andThen o f = .fault r ↔ o = .fault r ∨ ∃ a, o = .next a ∧ f a = .fault r := by
  cases o <;> simp
end andThen

section readReg
variable {α : Type} {r : Reg}
@[simp] theorem readReg_some (x : α) : readReg r (some x) = .next x := rfl
@[simp] theorem readReg_none : readReg (α := α) r none = .fault (.undefinedRead r) := rfl
theorem readReg_eq_next {v : Option α} {x : α} : readReg r v = .next x ↔ v = some x := by
  cases v <;> simp
end readReg

/-- A refusal is no next state. -/
@[simp] theorem refuseSequence_ne_next (s t : State) : refuseSequence s ≠ .next t := by
  unfold refuseSequence; split <;> simp

@[simp] theorem refuseSequence_ne_fault (s : State) (r : Fault) : refuseSequence s ≠ .fault r := by
  unfold refuseSequence; split <;> simp

theorem refuseSequence_required {s : State} (h : s.RESET_POLICY = .required) :
    refuseSequence s = .refused .outOfSequence := by
  simp [refuseSequence, h]

theorem refuseSequence_automatic {s : State} (h : s.PHASE = .Finalized) (h' : s.RESET_POLICY = .automatic) :
    refuseSequence s = .refused .resetPolicyUnspecified := by
  simp [refuseSequence, h, h']

/-- MemWrite in its domain (R54). -/
theorem memWrite_of_domain {s : State} {n v : Nat} (hn : n = 1 ∨ n = 8) (hv : v < 256 ^ n) :
    memWrite s.LEN n v s = .next { s with MSG := s.MSG.writeBytes s.LEN (beBytes n v), LEN := s.LEN + n } := by
  simp [memWrite, hn, hv]

/-- All that MemWrite can answer as a next state. -/
theorem memWrite_eq_next {s t : State} {addr n v : Nat} : memWrite addr n v s = .next t ↔
    ((n = 1 ∨ n = 8) ∧ addr = s.LEN ∧ v < 256 ^ n) ∧
    t = { s with MSG := s.MSG.writeBytes s.LEN (beBytes n v), LEN := s.LEN + n } := by
  unfold memWrite
  split
  · next h => simp [h, eq_comm]
  · next h => simp [h]

/-- MemWrite keeps the canonical form of the buffer. -/
theorem memWrite_wf {s t : State} {addr n v : Nat} (h : memWrite addr n v s = .next t) (hm : s.MSG.wf) : t.MSG.wf := by
  obtain ⟨-, rfl⟩ := memWrite_eq_next.1 h
  exact writeBytes_wf hm _ _

/-- The big-endian read of bytes that are there. -/
theorem readBigEndian_cons {m : Memory} {addr n acc : Nat} {b : Byte} (h : m.read addr = some b) :
    readBigEndian m addr (n + 1) acc = readBigEndian m (addr + 1) n (acc * 256 + b.toNat) := by
  simp [readBigEndian, h]

@[simp] theorem readBigEndian_zero (m : Memory) (addr acc : Nat) : readBigEndian m addr 0 acc = .next acc := rfl

/-- MemRead of one word whose bytes are there (R53). -/
theorem memRead_word {s : State} {addr : Nat} {b0 b1 b2 b3 : Byte} (h : addr + 4 ≤ s.LEN)
    (h0 : s.MSG.read addr = some b0) (h1 : s.MSG.read (addr + 1) = some b1)
    (h2 : s.MSG.read (addr + 2) = some b2) (h3 : s.MSG.read (addr + 3) = some b3) :
    memRead s addr 4 = .next (((b0.toNat * 256 + b1.toNat) * 256 + b2.toNat) * 256 + b3.toNat) := by
  simp [memRead, h, readBigEndian, h0, h1, h2, h3]

/-- Hardware reset always answers the cleared state. -/
@[simp] theorem hardReset_eq (s : State) : hardReset s = .next (clear s) := rfl

end Sys2Proof.Machine
end

