-- ==== Sys2Proof/Laws/Padder.lean ====
section
/-! SUPPORT. The padder: the zero count as natural-number arithmetic, the run of zero writes, the bytes PAD appends. -/

namespace Sys2Proof.Machine

/-- What R141 says of the zero count, for `omega`. -/
theorem zeroCount_spec (L : Nat) : zeroCount L < 64 ∧ (L + 1 + zeroCount L) % 64 = 56 := by
  unfold zeroCount; omega

theorem blockCount_eq (L : Nat) : 64 * blockCount L = L + 9 + zeroCount L := by
  have := zeroCount_spec L
  unfold blockCount; omega

@[simp] theorem bytesBe64_length (v : BitVec 64) : (bytesBe64 v).length = 8 := rfl

@[simp] theorem pad_length (m : List Byte) : (pad m).length = m.length + 9 + zeroCount m.length := by
  simp [pad]; omega

/-- The zero loop of PAD in one write. -/
theorem writeZeros_eq (k : Nat) (s : State) : writeZeros k s =
    .next { s with MSG := s.MSG.writeBytes s.LEN (List.replicate k 0x00#8), LEN := s.LEN + k } := by
  induction k generalizing s with
  | zero => simp [writeZeros, Memory.writeBytes]
  | succ k ih =>
    rw [writeZeros, memWrite_of_domain (.inl rfl) (by decide), andThen_next, ih,
      List.replicate_succ]
    simp [beBytes, Memory.writeBytes, Nat.add_assoc, Nat.add_comm 1 k]

/-- The bytes PAD appends to a message of `L` bytes, as it writes them. -/
def padTail (L : Nat) : List Byte := 0x80#8 :: (List.replicate (zeroCount L) 0x00#8 ++ beBytes 8 (8 * L))

@[simp] theorem padTail_length (L : Nat) : (padTail L).length = 9 + zeroCount L := by
  simp [padTail]; omega

end Sys2Proof.Machine
end

