-- ==== Sys2Proof/Laws/Blocks.lean ====
section
/-! SUPPORT. Blocks, schedules and rounds: the loops of EXPAND and COMPRESS in closed form. -/

namespace Sys2Proof.Machine

/-- The state-level rounds are the rounds on the working variables. -/
theorem rounds_eq {s : State} {w : Vector Word 64} {v : Vars} (hw : s.W = some w) (hv : s.vars = some v) :
    ∀ (n : Nat) (h : n ≤ 64), rounds n h s = .next { s with vars := some (roundsVars w n h v) }
  | 0, _ => by simp [rounds, roundsVars, ← hv]
  | n + 1, h => by
    rw [rounds, rounds_eq hw hv n (Nat.le_of_succ_le h), andThen_next, roundOp]
    simp [hw, roundsVars]

/-- The recurrence of R163, index by index. -/
theorem schedule_getElem_lt (f : Vector Word 16) (n i : Nat) (h : i < 16) : (schedule f n)[i] = f[i] := by
  induction n with
  | zero => rfl
  | succ n ih => simp only [schedule]; rw [Vector.getElem_push_lt (by omega)]; exact ih

/-- A word does not change once it is there. -/
theorem schedule_getElem_succ (f : Vector Word 16) (n i : Nat) (h : i < 16 + n) :
    (schedule f (n + 1))[i]'(by omega) = (schedule f n)[i] := by
  simp only [schedule]; rw [Vector.getElem_push_lt h]

/-- Nor does it in any longer schedule. -/
theorem schedule_getElem_le (f : Vector Word 16) (n k i : Nat) (h : i < 16 + n) :
    (schedule f (n + k))[i]'(by omega) = (schedule f n)[i] := by
  induction k with
  | zero => rfl
  | succ k ih => exact (schedule_getElem_succ f (n + k) i (by omega)).trans ih

/-- The newest word of a schedule. -/
theorem schedule_getElem_last (f : Vector Word 16) (n : Nat) :
    (schedule f (n + 1))[16 + n]'(by omega) =
      add32 (add32 (add32 (schedule f n)[n] (sigma0 (schedule f n)[n + 1])) (schedule f n)[n + 9])
        (sigma1 (schedule f n)[n + 14]) := by
  simp only [schedule]; exact Vector.getElem_push_eq

/-- The words of a block (R162). -/
theorem groupWords_getElem (B : Vector Byte 64) (n : Nat) (hn : n ≤ 16) (i : Nat) (h : i < n) :
    (groupWords B n hn)[i] = be32 B[4 * i] B[4 * i + 1] B[4 * i + 2] B[4 * i + 3] := by
  induction n with
  | zero => exact absurd h (Nat.not_lt_zero i)
  | succ n ih =>
    simp only [groupWords]
    by_cases hi : i < n
    · rw [Vector.getElem_push_lt hi]; exact ih _ hi
    · obtain rfl : i = n := by omega
      exact Vector.getElem_push_eq

/-- Two ways to write one word of a block (R53, R108). -/
theorem be32_eq_horner (b0 b1 b2 b3 : Byte) :
    BitVec.ofNat 32 (((b0.toNat * 256 + b1.toNat) * 256 + b2.toNat) * 256 + b3.toNat) = be32 b0 b1 b2 b3 := by
  unfold be32
  rw [show ∀ w x y z : Nat, ((w * 256 + x) * 256 + y) * 256 + z = w * 2 ^ 24 + x * 2 ^ 16 + y * 2 ^ 8 + z by
    intro w x y z; omega]

/-- The first loop of EXPAND reads the words of the block whose bytes are there. -/
theorem readWords_eq {s : State} {j : Nat} {B : Vector Byte 64} (hL : 64 * j + 64 ≤ s.LEN)
    (hB : ∀ (k : Nat) (h : k < 64), s.MSG.read (64 * j + k) = some B[k]) (n : Nat) (hn : n ≤ 16) :
    readWords s j n = .next (groupWords B n hn) := by
  induction n with
  | zero => rfl
  | succ n ih =>
    have h (c : Nat) (hc : c < 4) : s.MSG.read (wordAddr j n + c) = some (B[4 * n + c]) := by
      rw [wordAddr, show 64 * j + 4 * n + c = 64 * j + (4 * n + c) by omega]; exact hB _ (by omega)
    have h0 : s.MSG.read (wordAddr j n) = some B[4 * n] := h 0 (by omega)
    rw [readWords, ih (by omega), andThen_next,
      memRead_word (by unfold wordAddr; omega) h0 (h 1 (by omega)) (h 2 (by omega))
        (h 3 (by omega)),
      andThen_next, be32_eq_horner]
    rfl

/-- The blocks of a long enough byte sequence: as many as asked for. -/
theorem splitBlocks_length (n : Nat) (p : List Byte) (h : 64 * n ≤ p.length) : (splitBlocks n p).length = n := by
  induction n generalizing p with
  | zero => rfl
  | succ n ih => rw [splitBlocks, dif_pos (by omega), List.length_cons, ih _ (by simp; omega)]

/-- One more block. -/
theorem splitBlocks_succ (n : Nat) (p : List Byte) (h : 64 * n + 64 ≤ p.length) :
    ∃ B : Vector Byte 64, splitBlocks (n + 1) p = splitBlocks n p ++ [B] ∧
      ∀ (k : Nat) (hk : k < 64), p[64 * n + k]? = some B[k] := by
  induction n generalizing p with
  | zero =>
    refine ⟨⟨(p.take 64).toArray, by simp; omega⟩, by simp [splitBlocks, show 64 ≤ p.length by omega], ?_⟩
    intro k hk
    rw [Nat.mul_zero, Nat.zero_add, List.getElem?_eq_getElem (by omega)]
    simp
  | succ n ih =>
    obtain ⟨B, h1, h2⟩ := ih (p.drop 64) (by simp; omega)
    refine ⟨B, ?_, fun k hk => ?_⟩
    · rw [splitBlocks, dif_pos (by omega), h1]
      conv_rhs => rw [splitBlocks, dif_pos (show 64 ≤ p.length by omega)]
      rfl
    · rw [← h2 k hk, List.getElem?_drop]; congr 1; omega

/-- The chaining takes one more block at the end. -/
@[simp] theorem foldBlocks_append (x : Vector Word 8) (bs : List (Vector Byte 64)) (B : Vector Byte 64) :
    foldBlocks x (bs ++ [B]) = compress (foldBlocks x bs) (expand B) := by
  simp [foldBlocks]

@[simp] theorem splitBlocks_zero (p : List Byte) : splitBlocks 0 p = [] := rfl
@[simp] theorem foldBlocks_nil (x : Vector Word 8) : foldBlocks x [] = x := rfl

end Sys2Proof.Machine
end

