-- ==== Sys2Proof/Laws/Invariant.lean ====
section
/-! SUPPORT. The buffer part of the invariant in terms of the bytes it holds. -/

namespace Sys2Proof.Machine

theorem addresses_ofBytesAt (a : Nat) (bs : List Byte) :
    (Memory.ofBytesAt a bs).map Prod.fst = List.range' a bs.length := by
  induction bs generalizing a with
  | nil => rfl
  | cons b bs ih => simp [Memory.ofBytesAt, ih, List.range'_succ]

/-- A memory whose addresses are consecutive is the buffer of its bytes. -/
theorem eq_ofBytesAt {m : Memory} {a n : Nat} (h : m.map Prod.fst = List.range' a n) :
    m = Memory.ofBytesAt a m.bytes := by
  induction m generalizing a n with
  | nil => rfl
  | cons c m ih =>
    cases n with
    | zero => simp at h
    | succ n =>
      rw [List.map_cons, List.range'_succ] at h
      obtain ⟨h1, h2⟩ := List.cons.inj h
      rw [Memory.bytes, List.map_cons, Memory.ofBytesAt]
      exact congrArg₂ _ (Prod.ext h1 rfl) (ih h2)

/-- A buffer in order holds exactly its bytes, and `LEN` counts them. -/
theorem bufferOk_bytes {s : State} (h : s.BufferOk) :
    s.MSG = Memory.ofBytesAt 0 s.MSG.bytes ∧ s.LEN = s.MSG.bytes.length := by
  refine ⟨eq_ofBytesAt (n := s.LEN) (by rw [h, List.range_eq_range']), ?_⟩
  have := congrArg List.length h
  simpa using this.symm

/-- A buffer that holds exactly `m` is in order. -/
theorem bufferOk_of {s : State} {m : List Byte} (h : s.MSG = Memory.ofBytesAt 0 m) (hl : s.LEN = m.length) :
    s.BufferOk := by
  rw [State.BufferOk, h, hl, addresses_ofBytesAt, List.range_eq_range']

/-- A buffer in order is in canonical form. -/
theorem bufferOk_wf {s : State} (h : s.BufferOk) : s.MSG.wf := by
  rw [(bufferOk_bytes h).1]; exact ofBytesAt_wf 0 _

/-- Memory at reset is in canonical form. -/
theorem reset_wf : State.reset.MSG.wf := List.Pairwise.nil

end Sys2Proof.Machine
end

