-- ==== Sys2Proof/Laws/PerInstr.lean ====
section
/-! SUPPORT. One family of statements made per instruction: what stands in the fields of a command's word. -/

namespace Sys2Proof.Laws.EncodingFields

/-- R82, R84: the word of a command has its opcode in `cmd[11:8]` and its operand in `cmd[7:0]`, and it is the pattern
of exactly one row of the opcode map, the row of its name. -/
def Statement (i : Instr) : Prop :=
  opField (encode i) = opcode i ∧ immField (encode i) = operandByte i ∧
  (opcodeTable.filter fun r => r.covers (encode i)).map OpcodeRow.mnemonic = [i.mnemonic]

theorem reset : Statement .reset := by unfold Statement; decide

theorem append (imm8 : Byte) : Statement (.append imm8) := by
  unfold Statement
  revert imm8
  decide +kernel

theorem init : Statement .init := by unfold Statement; decide

theorem pad : Statement .pad := by unfold Statement; decide

theorem expand : Statement .expand := by unfold Statement; decide

theorem compress : Statement .compress := by unfold Statement; decide

theorem finalize : Statement .finalize := by unfold Statement; decide

theorem hash : Statement .hash := by unfold Statement; decide

end Sys2Proof.Laws.EncodingFields
end

