-- ==== Sys2Proof/Laws/Primitives.lean ====
section
/-! SUPPORT. The word primitives as integers, so that no proof unfolds them (R101). -/

namespace Sys2Proof.Machine

/-- R101. Cite this instead of unfolding `add32`: the kernel does not compare `% 2 ^ 32` by evaluation well. -/
theorem toNat_add32 (x y : Word) : (add32 x y).toNat = (x.toNat + y.toNat) % 2 ^ 32 := BitVec.toNat_add x y

/-- R102: "reducing after every partial sum, in any order or grouping, gives the same word". -/
theorem add32_assoc (x y z : Word) : add32 (add32 x y) z = add32 x (add32 y z) := BitVec.add_assoc x y z

theorem add32_comm (x y : Word) : add32 x y = add32 y x := BitVec.add_comm x y

end Sys2Proof.Machine
end

