-- ==== Sys2Proof/Tests/Slice0.lean ====
section
/-! SUPPORT. Tests. Every expected value is one the spec prints (95_test_vectors.md, or the examples and corner cases of
the rule named); the witnesses at the end meet the hypotheses of the obligations. -/

namespace Sys2Proof.Tests

open Sys2Proof Sys2Proof.Machine

/-! ## States -/

/-- The message of V2. -/
def abcMessage : List Byte := [0x61, 0x62, 0x63]

/-- `Created`, `MSG = 61 62 63` (P1, after command 4). -/
def abc : State := { State.reset with MSG := Memory.ofBytesAt 0 abcMessage, LEN := 3 }

/-- The padded buffer of T4, `L = 3`. -/
def abcPadded : List Byte := abcMessage ++ [0x80] ++ List.replicate 59 0x00 ++ [0x18]

/-- `Initialized`, not padded. -/
def initialized : State := { abc with H := some IV, PHASE := .Initialized }

/-- `Initialized`, padded. -/
def padded : State := { initialized with MSG := Memory.ofBytesAt 0 abcPadded, LEN := 64, PADDED := true }

/-- The words of T5. -/
def t5Words : List Word :=
  [0x61626380, 0x00000000, 0x00000000, 0x00000000, 0x00000000, 0x00000000, 0x00000000, 0x00000000] ++
  [0x00000000, 0x00000000, 0x00000000, 0x00000000, 0x00000000, 0x00000000, 0x00000000, 0x00000018] ++
  [0x61626380, 0x000f0000, 0x7da86405, 0x600003c6, 0x3e9d7b78, 0x0183fc00, 0x12dcbfdb, 0xe2e2c38e] ++
  [0xc8215c1a, 0xb73679a2, 0xe5bc3909, 0x32663c5b, 0x9d209d67, 0xec8726cb, 0x702138a4, 0xd3b7973b] ++
  [0x93f5997f, 0x3b68ba73, 0xaff4ffc1, 0xf10a5c62, 0x0a8b3996, 0x72af830a, 0x9409e33e, 0x24641522] ++
  [0x9f47bf94, 0xf0a64f5a, 0x3e246a79, 0x27333ba3, 0x0c4763f2, 0x840abf27, 0x7a290d5d, 0x065c43da] ++
  [0xfb3e89cb, 0xcc7617db, 0xb9e66c34, 0xa9993667, 0x84badedd, 0xc21462bc, 0x1487472c, 0xb20f7a99] ++
  [0xef57b9cd, 0xebe6b238, 0x9fe3095e, 0x78bc8d4b, 0xa43fcf15, 0x668b2ff8, 0xeeaba2cc, 0x12b1edeb]

/-- T5 as a schedule. -/
def t5 : Vector Word 64 := ⟨t5Words.toArray, rfl⟩

/-- `Expanded`, `W` as in T5. -/
def expanded : State := { padded with W := some t5, PHASE := .Expanded }

/-- `H` after the `"abc"` block (T6). -/
def abcH : Vector Word 8 :=
  #v[0xba7816bf, 0x8f01cfea, 0x414140de, 0x5dae2223, 0xb00361a3, 0x96177a9c, 0xb410ff61, 0xf20015ad]

/-- `Compressed`, no block left. -/
def compressed : State := { padded with H := some abcH, BLK := 1, PHASE := .Compressed }

/-- `Finalized`. -/
def finalized : State := { compressed with DIGEST := some (serialize abcH), PHASE := .Finalized }

/-- `abc` in an engine whose capacity it fills. -/
def abcFull : State := { abc with MAXLEN := 3 }

/-- `abc` in an engine with room for one more byte. -/
def abcRoom : State := { abc with MAXLEN := 4 }

/-- `initialized` and `finalized` in an engine of three bytes. -/
def initFull : State := { initialized with MAXLEN := 3 }
@[inherit_doc initFull] def finalFull : State := { finalized with MAXLEN := 3 }

/-- `finalized` under the policy that has no semantics. -/
def automatic : State := { finalized with RESET_POLICY := .automatic }

/-- Inside COMPRESS, after LOADVARS. -/
def loaded : State := { expanded with vars := some (Vars.ofWords IV) }

/-- States with a register missing, which no run reaches. -/
def noH : State := { expanded with H := none }
@[inherit_doc noH] def noW : State := { expanded with W := none }
@[inherit_doc noH] def noHLeft : State := { compressed with H := none }
@[inherit_doc noH] def noDigest : State := { finalized with DIGEST := none }

/-- A state whose host does `x` next. -/
def withHost (s : State) (x : HostInput) : State := { s with port := [x] }

/-- The message of T8. -/
def t8Message : List Byte :=
  [0x61, 0x62, 0x63, 0x64, 0x62, 0x63, 0x64, 0x65, 0x63, 0x64, 0x65, 0x66, 0x64, 0x65] ++
  [0x66, 0x67, 0x65, 0x66, 0x67, 0x68, 0x66, 0x67, 0x68, 0x69, 0x67, 0x68, 0x69, 0x6a] ++
  [0x68, 0x69, 0x6a, 0x6b, 0x69, 0x6a, 0x6b, 0x6c, 0x6a, 0x6b, 0x6c, 0x6d, 0x6b, 0x6c] ++
  [0x6d, 0x6e, 0x6c, 0x6d, 0x6e, 0x6f, 0x6d, 0x6e, 0x6f, 0x70, 0x6e, 0x6f, 0x70, 0x71]

/-- `Created`, `MSG` as in T8. -/
def t8 : State := { State.reset with MSG := Memory.ofBytesAt 0 t8Message, LEN := 56 }

/-- An outcome with a next state is one. -/
theorem exists_next {α : Type} {o : Host.Outcome α Fault Refusal} (h : (nextState o).isSome = true) :
    ∃ t, o = .next t := by
  cases o with
  | next t => exact ⟨t, rfl⟩
  | fault f => simp [nextState] at h
  | refused r => simp [nextState] at h

/-! ## Well-formedness: each check refuses a term -/

/-- R87: an operand above 255, a missing operand, an operand too many. -/
theorem test_wf_lines :
    (SourceLine.mk .APPEND (some 256)).wellFormed = false ∧ (SourceLine.mk .APPEND none).wellFormed = false ∧
    (SourceLine.mk .RESET (some 0)).wellFormed = false ∧ (SourceLine.mk .HASH (some 1)).wellFormed = false ∧
    (SourceLine.mk .APPEND (some 255)).wellFormed = true ∧ (SourceLine.mk .HASH none).wellFormed = true := by decide

/-- R88: characters on both sides of `0x20 .. 0x7E`. -/
theorem test_wf_texts :
    (Pseudo.loads [0x1F]).wellFormed = false ∧ (Pseudo.loads [0x7F]).wellFormed = false ∧
    (Pseudo.loads [0x20, 0x7E]).wellFormed = true := by decide

/-- R216: elements outside their ranges. -/
theorem test_wf_elements :
    (Element.unsigned 256).wellFormed = false ∧ (Element.signed (-129)).wellFormed = false ∧
    (Element.signed 128).wellFormed = false ∧ (Element.character 256).wellFormed = false ∧
    (Element.signed (-128)).wellFormed = true := by decide

/-- A command has no ill-formed term: its one operand is a byte (R83). -/
theorem test_wf_commands (i : Instr) : i.wellFormed = true := by cases i <;> rfl

/-! ## Decoding: T13, each word bit by bit from the patterns of R84 -/

/-- The seven commands without an operand. -/
theorem test_decode_format_Z :
    decode 0b000100000000 = .ok .reset ∧ decode 0b001100000000 = .ok .init ∧ decode 0b010000000000 = .ok .pad ∧
    decode 0b010100000000 = .ok .expand ∧ decode 0b011000000000 = .ok .compress ∧
    decode 0b011100000000 = .ok .finalize ∧ decode 0b100000000000 = .ok .hash := by decide

/-- APPEND and its byte. -/
theorem test_decode_format_I :
    decode 0b001000000000 = .ok (.append 0x00) ∧ decode 0b001001100001 = .ok (.append 0x61) ∧
    decode 0b001010000000 = .ok (.append 0x80) ∧ decode 0b001011111111 = .ok (.append 0xFF) := by decide

/-- Reserved words. -/
theorem test_decode_reserved :
    decode 0b000000000000 = .reserved (.opcode 0) ∧ decode 0b000100000001 = .reserved (.operand 1 1) ∧
    decode 0b100011111111 = .reserved (.operand 8 0xFF) ∧ decode 0b100100000000 = .reserved (.opcode 9) ∧
    decode 0b111111111111 = .reserved (.opcode 0xF) := by decide

/-- A table word is 12 bits; more is no command word (log 12). -/
theorem test_table_word :
    decodeTableWord 12 0x261 = some (.append 0x61) ∧ decodeTableWord 16 0x261 = some (.append 0x61) ∧
    decodeTableWord 16 0x1261 = none ∧ decodeTableWord 12 0x000 = none := by decide

/-! ## Functions: T1 to T4, T11 -/

/-- T1. -/
theorem test_word_primitives :
    add32 0xffffffff 1 = 0 ∧ add32 0x6a09e667 0x506e3058 = 0xba7816bf ∧ not32 0x510e527f = 0xaef1ad80 ∧
    shr 0x80000000 10 = 0x00200000 ∧ shr 0x12345678 3 = 0x02468acf ∧ rotr 0x80000000 31 = 0x00000001 ∧
    rotr 0x12345678 (-32) = 0x12345678 ∧ rotr 0x12345678 (-1) = 0x2468acf0 ∧ rotr 0x12345678 39 = 0xf02468ac ∧
    rotr 0x12345678 (-25) = 0xf02468ac ∧ be32 0x61 0x62 0x63 0x80 = 0x61626380 ∧
    bytesBe64 8000000 = [0, 0, 0, 0, 0, 0x7a, 0x12, 0] := by decide

/-- T2. -/
theorem test_sigma_functions :
    [sigma0 1, sigma1 1, Sigma0 1, Sigma1 1] = [0x02004000, 0x0000a000, 0x40080400, 0x04200080] ∧
    [sigma0 0x80000000, sigma1 0x80000000, Sigma0 0x80000000, Sigma1 0x80000000] =
      [0x11002000, 0x00205000, 0x20040200, 0x02100040] ∧
    [sigma0 0x61626380, sigma1 0x61626380, Sigma0 0x61626380, Sigma1 0x61626380] =
      [0x940e90ef, 0x7da86405, 0x8dd59276, 0xc0b865f2] := by decide

/-- T3. -/
theorem test_choose_majority :
    ch 0xffff0000 0x12345678 0x9abcdef0 = 0x1234def0 ∧ maj 0xffff0000 0x12345678 0x9abcdef0 = 0x9abc5670 ∧
    ch 0x6a09e667 0xbb67ae85 0x3c6ef372 = 0x3e67b715 ∧ maj 0x6a09e667 0xbb67ae85 0x3c6ef372 = 0x3a6fe667 := by decide

/-- T4: `L = 3`, and the boundary `L = 56`. -/
theorem test_padding :
    pad abcMessage = abcPadded ∧
    pad (List.replicate 56 0x61) =
      List.replicate 56 0x61 ++ [0x80] ++ List.replicate 63 0x00 ++ [0, 0, 0, 0, 0, 0, 0x01, 0xc0] := by decide +kernel

/-- R121, R120: entries on both sides of a row's end. -/
theorem test_constants : kLookup 0 = 0x428a2f98 ∧ kLookup 8 = 0xd807aa98 ∧ kLookup 63 = 0xc67178f2 := by decide

/-- T11. -/
theorem test_serialize :
    (serialize #v[1, 0, 0xffffffff, 0x80000000, 0x01020304, 0xa0b0c0d0, 0, 0xf]).toList =
      [0, 0, 0, 1, 0, 0, 0, 0] ++ [0xff, 0xff, 0xff, 0xff, 0x80, 0, 0, 0] ++
      [1, 2, 3, 4, 0xa0, 0xb0, 0xc0, 0xd0] ++ [0, 0, 0, 0, 0, 0, 0, 0x0f] := by decide

/-- T11. -/
theorem test_hex : hexChars [] = [] ∧ hexChars [0x00, 0x0f, 0xa5, 0xff] = "000fa5ff".toList := by decide

/-- T6, round 0. -/
theorem test_round_zero :
    temp1 (Vars.ofWords IV) (kLookup 0) 0x61626380 = 0x54da50e8 ∧ temp2 (Vars.ofWords IV) = 0x08909ae5 ∧
    (roundVars (Vars.ofWords IV) (kLookup 0) 0x61626380).toWords =
      #v[0x5d6aebcd, 0x6a09e667, 0xbb67ae85, 0x3c6ef372, 0xfa2a4622, 0x510e527f, 0x9b05688c, 0x1f83d9ab] := by decide

/-! ## The commands, one step each: P1 to P5, T5, T6, T8, T14 -/

/-- P4, command 6. -/
theorem test_reset_clears :
    nextState (step (withHost finalized (.command 0x100))) = some State.reset := by decide

/-- P1, command 4: the byte goes to `MSG[LEN]`. -/
theorem test_append_third_byte :
    nextState (step (withHost { State.reset with MSG := [(0, 0x61), (1, 0x62)], LEN := 2 } (.command 0x263))) =
      some abc := by decide

/-- T14: `INIT; APPEND`; R243: a full buffer. -/
theorem test_append_refused :
    refusalIn (exec (.append 0x61) initialized) = some .outOfSequence ∧
    refusalIn (exec (.append 0x61) abcFull) = some .capacity := by decide

/-- V4. -/
theorem test_init_loads_iv : nextState (step (withHost abc (.command 0x300))) = some initialized := by decide

/-- T14: `INIT; INIT`. -/
theorem test_init_refused : refusalIn (exec .init initialized) = some .outOfSequence := by decide

/-- T4: `61 62 63` in place. -/
theorem test_pad_abc : nextState (step (withHost initialized (.command 0x400))) = some padded := by decide +kernel

/-- T14: `PAD` before `INIT`, and twice. -/
theorem test_pad_refused :
    refusalIn (exec .pad abc) = some .outOfSequence ∧ refusalIn (exec .pad padded) = some .outOfSequence := by decide

/-- T5, all 64 words. -/
theorem test_expand_abc : nextState (step (withHost padded (.command 0x500))) = some expanded := by decide +kernel

/-- T14: not padded; schedule not consumed; no block left. -/
theorem test_expand_refused :
    refusalIn (exec .expand initialized) = some .outOfSequence ∧
    refusalIn (exec .expand expanded) = some .outOfSequence ∧
    refusalIn (exec .expand compressed) = some .outOfSequence := by decide

/-- T6, all 64 rounds and ADDBLOCK; `W` and `a .. h` discarded, `BLK` advanced. -/
theorem test_compress_abc : nextState (step (withHost expanded (.command 0x600))) = some compressed := by decide +kernel

/-- T14: nothing expanded; schedule already consumed. -/
theorem test_compress_refused :
    refusalIn (exec .compress padded) = some .outOfSequence ∧
    refusalIn (exec .compress compressed) = some .outOfSequence := by decide

/-- V2, through FINALIZE. -/
theorem test_finalize_abc :
    (nextState (step (withHost compressed (.command 0x700)))).map (fun t => (t.PHASE, t.out.map Vector.toList)) =
      some (.Finalized, [[0xba, 0x78, 0x16, 0xbf, 0x8f, 0x01, 0xcf, 0xea] ++
        [0x41, 0x41, 0x40, 0xde, 0x5d, 0xae, 0x22, 0x23] ++ [0xb0, 0x03, 0x61, 0xa3, 0x96, 0x17, 0x7a, 0x9c] ++
        [0xb4, 0x10, 0xff, 0x61, 0xf2, 0x00, 0x15, 0xad]]) := by decide

/-- P5 and T14: after `INIT` (the IV is not emitted), and with a block left. -/
theorem test_finalize_refused :
    refusalIn (exec .finalize initialized) = some .outOfSequence ∧
    refusalIn (exec .finalize { compressed with LEN := 128 }) = some .outOfSequence := by decide

/-- T8: two blocks in order, through HASH from the command port. -/
theorem test_hash_two_blocks :
    (nextState (step (t8.withFetchWord 16 0x800))).bind (fun t => t.H) =
      some #v[0x248d6a61, 0xd20638b8, 0xe5c02693, 0x0c3e6039, 0xa33ce459, 0x64ff2167, 0xf6ecedd4, 0x19db06c1] := by
  decide +kernel

/-- T14: `HASH; HASH`, under both values of the open parameter (log 6). -/
theorem test_hash_refused :
    refusalIn (exec .hash finalized) = some .outOfSequence ∧
    refusalIn (exec .hash automatic) = some .resetPolicyUnspecified := by decide

/-! ## The ports -/

/-- R56: the port hands over `DIGEST` and leaves the engine alone; T14: not before `Finalized`. -/
theorem test_digest_port :
    nextState (step (withHost finalized .readDigest)) = some { finalized with out := [serialize abcH] } ∧
    refusalIn (step (withHost compressed .readDigest)) = some .digestNotValid := by decide

/-- R56, R86: `DIGEST[0]` is the top byte of the bus. -/
theorem test_digest_bus :
    digestBus (serialize abcH) = 0xba7816bf8f01cfea414140de5dae2223b00361a396177a9cb410ff61f20015ad := by decide

/-- R270: a reset during HASH gives the reset state. -/
theorem test_hard_reset :
    nextState (step (withHost expanded (.hardReset (some 0x600)))) = some State.reset := by decide

/-- R245: a reserved word is refused as reserved first. -/
theorem test_reserved_first :
    refusalIn (step (withHost finalized (.command 0x101))) = some .reservedEncoding := by decide

/-- R53. -/
theorem test_mem_read : nextState (memRead padded 0 4) = some 0x61626380 := by decide

/-- R33, R24: the derived values and the phase codes. -/
theorem test_derived :
    padded.NBLK = some 1 ∧ abc.NBLK = none ∧ finalized.DVALID = true ∧ compressed.DVALID = false ∧
    Phase.Finalized.code = 4 := by decide

/-! ## The host's side: R87, R88, R216 -/

/-- R87: decimal, hexadecimal, a comment, an empty line, a lower-case name, a number too large. -/
theorem test_assembler :
    parseLine "APPEND 0x61 ; first byte".toList = some [.append 0x61] ∧
    parseLine "APPEND 255".toList = some [.append 0xFF] ∧ parseLine "  HASH".toList = some [.hash] ∧
    parseLine "; nothing".toList = some [] ∧ parseLine "hash".toList = none ∧
    parseLine "APPEND 256".toList = none ∧ parseLine "RESET 0".toList = none := by decide +kernel

/-- R88, P1: the three spellings of the program. -/
theorem test_pseudo :
    parseLine "LOADS \"abc\"".toList = some [.append 0x61, .append 0x62, .append 0x63] ∧
    parseLine "LOADS \"a;\" ; two".toList = some [.append 0x61, .append 0x3B] ∧
    parseLine "HASHMSG 0x61, 0x62, 0x63".toList =
      some [.reset, .append 0x61, .append 0x62, .append 0x63, .hash] ∧
    parseLine "LOAD".toList = some [] ∧ parseLine "BLOCK".toList = some [.expand, .compress] := by decide +kernel

/-- R216: `-1` gives `0xFF`, `'a'` gives `0x61`. -/
theorem test_elements :
    elementByte (.signed (-1)) = some 0xFF ∧ elementByte (.character 0x61) = some 0x61 ∧
    elementByte (.unsigned 256) = none := by decide

/-! ## Witnesses: every hypothesis of an obligation is met, clause by clause, at a boundary where it has a range -/

/-- DecodeInvertsEncode. -/
theorem test_hyp_DecodeInvertsEncode :
    (Instr.append 0xFF).wellFormed = true ∧ decode 0x2FF = .ok (.append 0xFF) ∧ 0x2FF = encode (.append 0xFF) := by
  decide

/-- DecoderFollowsTheOpcodeMap: both sides of the equivalence, and a row that covers a word. -/
theorem test_hyp_DecoderFollowsTheOpcodeMap :
    decode 0x2FF = .ok (.append 0xFF) ∧ (Instr.append 0xFF).mnemonic = .APPEND ∧
    (⟨.APPEND, 0x200, 0xF00⟩ : OpcodeRow) ∈ opcodeTable ∧
    (⟨.APPEND, 0x200, 0xF00⟩ : OpcodeRow).covers 0x2FF = true := by decide

/-- ReservedWordsAreRefused: both kinds, the second at the port. -/
theorem test_hyp_ReservedWordsAreRefused :
    decode 0x000 = .reserved (.opcode 0) ∧ decode 0x8FF = .reserved (.operand 8 0xFF) ∧
    (withHost finalized (.command 0x8FF)).port = [.command 0x8FF] := by decide

/-- StepRunsTheDecodedCommand. -/
theorem test_hyp_StepRunsTheDecodedCommand :
    (withHost abc (.command 0x2FF)).port = [.command 0x2FF] ∧ decode 0x2FF = .ok (.append 0xFF) ∧
    decodeTableWord 16 0x800 = some .hash ∧
    (withHost finalized (.hardReset none)).port = [.hardReset none] ∧
    (withHost expanded (.hardReset (some 0x600))).port = [.hardReset (some 0x600)] ∧
    (withHost finalized .readDigest).port = [.readDigest] := by decide

/-- SilentHostLeavesTheState. -/
theorem test_hyp_SilentHostLeavesTheState : State.reset.port = [] := by decide

/-- AppendAddsOneByte: room for the first byte and for one byte; none left; another phase. -/
theorem test_hyp_AppendAddsOneByte :
    (State.reset.PHASE = .Created ∧ State.reset.LEN < State.reset.MAXLEN.val) ∧
    (abcRoom.PHASE = .Created ∧ abcRoom.LEN < abcRoom.MAXLEN.val) ∧
    (abcFull.PHASE = .Created ∧ abcFull.MAXLEN.val ≤ abcFull.LEN) ∧
    (initialized.RESET_POLICY = .required ∧ initialized.PHASE ≠ .Created) := by decide

/-- InitLoadsTheInitialConstants. -/
theorem test_hyp_InitLoadsTheInitialConstants :
    abc.PHASE = .Created ∧ initialized.RESET_POLICY = .required ∧ initialized.PHASE ≠ .Created := by decide

/-- PadAppendsMarkerZerosAndLength, PadComputesThePaddingFunction: `LEN = MAXLEN` too; `PADDED = 1` and another
phase. -/
theorem test_hyp_Pad :
    (initFull.PHASE = .Initialized ∧ initFull.PADDED = false ∧ initFull.MSG = Memory.ofBytesAt 0 abcMessage ∧
      initFull.LEN = abcMessage.length ∧ abcMessage.length ≤ initFull.MAXLEN.val) ∧
    (padded.RESET_POLICY = .required ∧ ¬ (padded.PHASE = .Initialized ∧ padded.PADDED = false)) ∧
    ¬ (abc.PHASE = .Initialized ∧ abc.PADDED = false) := by decide

/-- The block of `abcPadded`. -/
def abcBlock : Vector Byte 64 := ⟨abcPadded.toArray, rfl⟩

/-- ExpandWritesTheSchedule: from `Initialized` and from `Compressed`; refused at `BLK = NBLK`. -/
theorem test_hyp_ExpandWritesTheSchedule :
    (padded.PADDED = true ∧ padded.BLK < padded.LEN / 64 ∧ padded.PHASE = .Initialized ∧
      ∀ k : Fin 64, padded.MSG.read (64 * padded.BLK + k) = some abcBlock[k]) ∧
    (let s : State := { compressed with MSG := Memory.ofBytesAt 0 (abcPadded ++ abcPadded), LEN := 128 }
     s.PADDED = true ∧ s.BLK < s.LEN / 64 ∧ s.PHASE = .Compressed ∧
      ∀ k : Fin 64, s.MSG.read (64 * s.BLK + k) = some abcBlock[k]) ∧
    (compressed.RESET_POLICY = .required ∧ ¬ (compressed.BLK < compressed.LEN / 64)) := by decide +kernel

/-- CompressFoldsTheBlock. -/
theorem test_hyp_CompressFoldsTheBlock :
    (expanded.PHASE = .Expanded ∧ expanded.H = some IV ∧ expanded.W = some t5) ∧
    (padded.RESET_POLICY = .required ∧ padded.PHASE ≠ .Expanded) := by decide

/-- FinalizeSerializesTheState. -/
theorem test_hyp_FinalizeSerializesTheState :
    (compressed.PHASE = .Compressed ∧ compressed.PADDED = true ∧ compressed.BLK = compressed.LEN / 64 ∧
      compressed.H = some abcH) ∧
    (initialized.RESET_POLICY = .required ∧ initialized.PHASE ≠ .Compressed) := by decide

/-- HashComputesTheHashFunction: a message that fills the capacity, and the empty one. -/
theorem test_hyp_HashComputesTheHashFunction :
    (abcFull.PHASE = .Created ∧ abcFull.PADDED = false ∧ abcFull.BLK = 0 ∧
      abcFull.MSG = Memory.ofBytesAt 0 abcMessage ∧ abcFull.LEN = abcMessage.length ∧
      abcMessage.length ≤ abcFull.MAXLEN.val) ∧
    (State.reset.MSG = Memory.ofBytesAt 0 [] ∧ State.reset.LEN = 0) ∧
    (finalized.RESET_POLICY = .required ∧ finalized.PHASE ≠ .Created) := by decide

/-- HashmsgReturnsTheHash. -/
theorem test_hyp_HashmsgReturnsTheHash :
    abcMessage.length ≤ finalFull.MAXLEN.val := by decide

/-- AutomaticPolicyIsRefused. -/
theorem test_hyp_AutomaticPolicyIsRefused :
    automatic.PHASE = .Finalized ∧ automatic.RESET_POLICY = .automatic ∧
    Instr.init ≠ .reset := by decide

/-- LoadvarsCopiesTheStateWords, RoundUpdatesTheWorkingVariables (rounds 0 and 63), AddblockAddsLaneByLane. -/
theorem test_hyp_MicroOperations :
    padded.H = some IV ∧
    loaded.vars = some (Vars.ofWords IV) ∧ loaded.W = some t5 ∧
    (0 : Fin 64).val = 0 ∧ (63 : Fin 64).val = 63 := by decide

/-- ModelFaultsWhereNothingIsDefined, clause by clause (no run reaches such a read or access). -/
theorem test_hyp_ModelFaults :
    (noH.PHASE = .Expanded ∧ noH.H = none) ∧
    (noW.PHASE = .Expanded ∧ noW.H = some IV ∧ noW.W = none) ∧
    expanded.vars = none ∧
    (¬ ((4 = 1 ∨ 4 = 4) ∧ 61 + 4 ≤ padded.LEN) ∧ ¬ ((8 = 1 ∨ 8 = 4) ∧ 0 + 8 ≤ padded.LEN)) ∧
    (¬ ((1 = 1 ∨ 1 = 8) ∧ 3 = abc.LEN ∧ 0x100 < 256 ^ 1) ∧ ¬ ((1 = 1 ∨ 1 = 8) ∧ 2 = abc.LEN ∧ 0 < 256 ^ 1)) ∧
    (noHLeft.PHASE = .Compressed ∧ noHLeft.PADDED = true ∧ noHLeft.BLK = noHLeft.LEN / 64 ∧ noHLeft.H = none) ∧
    (noDigest.PHASE = .Finalized ∧ noDigest.DIGEST = none) := by decide

/-- The invariant holds in a state of every phase. -/
theorem test_hyp_invariant :
    State.reset.Inv ∧ abc.Inv ∧ initialized.Inv ∧ padded.Inv ∧ expanded.Inv ∧ compressed.Inv ∧ finalized.Inv :=
  ⟨by decide, by decide, by decide, by decide +kernel, by decide +kernel, by decide +kernel, by decide +kernel⟩

/-- LegalityTableDecidesEveryCommand: a cell of each kind, in a state that meets the invariant. -/
theorem test_hyp_LegalityTableDecidesEveryCommand :
    (padded.Inv ∧ legality (Instr.expand).mnemonic padded.column = .ok) ∧
    (abcRoom.Inv ∧ legality (Instr.append 0).mnemonic abcRoom.column = .okIfRoom ∧
      abcRoom.LEN < abcRoom.MAXLEN.val) ∧
    (abcFull.Inv ∧ legality (Instr.append 0).mnemonic abcFull.column = .okIfRoom ∧
      ¬ abcFull.LEN < abcFull.MAXLEN.val) ∧
    (compressed.Inv ∧ legality (Instr.expand).mnemonic compressed.column = .refuse ∧
      compressed.RESET_POLICY = .required) :=
  ⟨by decide +kernel, by decide, by decide, by decide +kernel⟩

/-- Every command has a next state somewhere: TransitionsFollowTheStateMachine, OnlyInitAndAddblockWriteH,
DigestIsWrittenOnceAndKept, BlockIndexAndPaddedFlagWriters, CommandsLeaveParametersAndPortAlone,
MessageIsAppendOnlyThenFrozen. -/
theorem test_hyp_commands_run :
    (∃ t, exec .reset finalized = .next t) ∧ (∃ t, exec (.append 0xFF) State.reset = .next t) ∧
    (∃ t, exec .init abc = .next t) ∧ (∃ t, exec .pad initialized = .next t) ∧
    (∃ t, exec .expand padded = .next t) ∧ (∃ t, exec .compress expanded = .next t) ∧
    (∃ t, exec .finalize compressed = .next t) ∧ (∃ t, exec .hash abc = .next t) := by
  refine ⟨?_, ?_, ?_, ?_, ?_, ?_, ?_, ?_⟩ <;> exact exists_next (by decide +kernel)

/-- MessageIsAppendOnlyThenFrozen, its second clause: a padded state that meets the invariant. -/
theorem test_hyp_MessageIsAppendOnlyThenFrozen :
    Instr.expand ≠ .reset ∧ padded.Inv ∧ padded.PADDED = true ∧ 63 < padded.LEN := by decide +kernel

/-- OnlyInitAndAddblockWriteH, its second clause: all 64 rounds. -/
theorem test_hyp_rounds :
    ∃ t, rounds 64 (Nat.le_refl 64) loaded = .next t :=
  exists_next (by decide +kernel)

/-- StepKeepsTheInvariant, NoFaultFromTheInvariant: a step from a state that meets the invariant. -/
theorem test_hyp_StepKeepsTheInvariant :
    (withHost padded (.command 0x500)).Inv ∧ ∃ t, step (withHost padded (.command 0x500)) = .next t :=
  ⟨by decide +kernel, exists_next (by decide +kernel)⟩

/-- StepKeepsTheMeaning: a padded state with that meaning, about to expand. -/
theorem test_hyp_StepKeepsTheMeaning :
    (withHost padded (.command 0x500)).Inv ∧ (withHost padded (.command 0x500)).Meaning ∧
    ∃ t, step (withHost padded (.command 0x500)) = .next t := by
  refine ⟨by decide +kernel, ⟨fun _ h => ?_, fun _ => ⟨abcMessage, by decide +kernel, fun _ => rfl, ?_, ?_⟩⟩,
    exists_next (by decide +kernel)⟩
  · exact absurd h (by decide)
  · exact fun h => absurd h (by decide)
  · exact fun h => absurd h (by decide)

/-- EveryDigestHandedOutIsAHash: a host that already holds a genuine digest. -/
theorem test_hyp_EveryDigestHandedOutIsAHash :
    ∃ s t : State, s.Inv ∧ s.Meaning ∧ s.out ≠ [] ∧ (∀ d ∈ s.out, s.Genuine d) ∧ step s = .next t := by
  refine ⟨{ State.reset with out := [hashMessage abcMessage], port := [.command 0x261] }, _, by decide +kernel,
    ⟨fun h => absurd rfl h, fun h => absurd h (by decide)⟩, List.cons_ne_nil _ _, fun d hd => ?_, rfl⟩
  exact ⟨abcMessage, by decide, List.mem_singleton.1 hd⟩

/-- StreamingSequenceIsSafe. -/
theorem test_hyp_StreamingSequenceIsSafe : abc.Inv ∧ abc.PHASE = .Created := by decide +kernel

/-- DigestIsWrittenOnceAndKept: RESET from `Finalized`, and the digest there. -/
theorem test_hyp_DigestIsWrittenOnceAndKept :
    (finalized.PHASE = .Finalized ∧ finalized.DIGEST = some (serialize abcH)) ∧
    ∃ t, exec .reset finalized = .next t :=
  ⟨by decide, exists_next (by decide)⟩

/-- MemReadIsBigEndian: the last byte, the last four bytes. -/
theorem test_hyp_MemReadIsBigEndian :
    (63 + 1 ≤ padded.LEN ∧ padded.MSG.read 63 = some 0x18) ∧
    (60 + 4 ≤ padded.LEN ∧ padded.MSG.read 60 = some 0 ∧ padded.MSG.read 61 = some 0 ∧ padded.MSG.read 62 = some 0) :=
  by decide

/-- MemWriteAppendsBigEndian: the largest value of each width. -/
theorem test_hyp_MemWriteAppendsBigEndian :
    0xFF < 256 ^ 1 ∧ 0xFFFFFFFFFFFFFFFF < 256 ^ 8 := by decide

/-- DigestPortFollowsR56. -/
theorem test_hyp_DigestPortFollowsR56 :
    finalized.PHASE = .Finalized ∧ finalized.DIGEST = some (serialize abcH) ∧ compressed.PHASE ≠ .Finalized ∧
    31 < 32 := by decide

/-- CommandsLeaveParametersAndPortAlone, its clauses about a read: the operation and the step. -/
theorem test_hyp_digest_read :
    (withHost finalized .readDigest).port = [.readDigest] ∧ (withHost finalized .readDigest).PHASE = .Finalized ∧
    (withHost finalized .readDigest).DIGEST = some (serialize abcH) := by decide

/-- ZeroCountIsLeast: a count that works, and lengths on both sides of the boundary. -/
theorem test_hyp_ZeroCountIsLeast : 8 * (56 + 1 + 63) % 512 = 448 ∧ 55 % 64 ≤ 55 ∧ 56 % 64 ≥ 56 := by decide

/-- PaddingTableOfCornerCases: a message of a row's length. -/
theorem test_hyp_PaddingTableOfCornerCases : abcMessage.length = 3 := by decide

/-- PadIsInjective. -/
theorem test_hyp_PadIsInjective :
    abcMessage.length < 2 ^ 61 ∧ pad abcMessage = pad [0x61, 0x62, 0x63] ∧
    (pad abcMessage).drop ((pad abcMessage).length - 8) = bytesBe64 24 := by decide

/-- BlocksAreSlicesInOrder, LastBlockCarriesTheLength: the padded buffer of V2 is one block. -/
theorem test_hyp_Blocks :
    64 * 1 ≤ (pad abcMessage).length ∧ 0 < 1 ∧ blockCount abcMessage.length = 1 ∧
    (splitBlocks (blockCount abcMessage.length) (pad abcMessage)).getLast? = some abcBlock := by decide +kernel

/-- ScheduleFollowsTheRecurrence: the ends of both ranges. -/
theorem test_hyp_ScheduleFollowsTheRecurrence : 15 < 16 ∧ 16 ≤ 16 ∧ 63 < 64 := by decide

/-- SigmaFunctionsBitByBit, RotateMovesEveryBit, WordPrimitivesAsIntegers, SerializeOrdersTheBytes,
HexHelperWritesTwoDigitsAByte: the ends of the ranges. -/
theorem test_hyp_ranges :
    0 < 32 ∧ 31 < 32 ∧ 31 ≤ 31 ∧ (7 < 8 ∧ 3 < 4) ∧ 0 < [(0x00 : Byte)].length := by decide

/-- BigEndianGroupingInverts. -/
theorem test_hyp_BigEndianGroupingInverts :
    bytesBe32 0x61626380 = [0x61, 0x62, 0x63, 0x80] ∧ 2 ^ 64 - 1 < 2 ^ 64 := by decide

/-- PseudoInstructionsExpand: a text of the two ends of the range, and texts outside on both sides. -/
theorem test_hyp_PseudoInstructionsExpand :
    (∀ c ∈ [0x20, 0x7E], 0x20 ≤ c ∧ c ≤ 0x7E) ∧ (∃ c ∈ [0x1F], c < 0x20 ∨ 0x7E < c) ∧
    (∃ c ∈ [0x7F], c < 0x20 ∨ 0x7E < c) := by decide

/-- SourceLinesAssemble: both kinds of line. -/
theorem test_hyp_SourceLinesAssemble :
    assemble ⟨.APPEND, some 255⟩ = some (.append 0xFF) ∧ assemble ⟨.HASH, none⟩ = some .hash := by decide

/-- ElementsConvertToBytes: the ends of the ranges. -/
theorem test_hyp_ElementsConvertToBytes :
    255 ≤ 255 ∧ (-128 : Int) ≤ -128 ∧ (127 : Int) ≤ 127 ∧ elementByte (.signed (-128)) = some 0x80 := by decide

end Sys2Proof.Tests
end

/-! The proofs of the scope family: what a step does with each thing the host does (R9, R11), what a digest read does
(R56), and all that each command can answer as a next state, from which its frame is read off (R7, R20, R66). -/

namespace Sys2Proof.Machine

/-! ## The step, one equation for each thing that can be first at the ports -/

section step
variable {s : State} {rest : List HostInput}

theorem step_of_silent (h : s.port = []) : step s = .next s := by
  simp [step, h]

theorem step_of_command {w : CmdWord} {i : Instr} (h : s.port = .command w :: rest) (hw : decode w = .ok i) :
    step s = exec i { s with port := rest } := by
  simp [step, h, hw]

theorem step_of_hardReset {running : Option CmdWord} (h : s.port = .hardReset running :: rest) :
    step s = hardReset { s with port := rest } := by
  simp [step, h]

theorem step_of_readDigest (h : s.port = .readDigest :: rest) : step s = hostRead { s with port := rest } := by
  simp [step, h]

/-- A table word stands for a command through the one command word it carries. -/
theorem decodeTableWord_eq_some {nbits w : Nat} {i : Instr} :
    decodeTableWord nbits w = some i ↔ ∃ c, tableWord nbits w = some c ∧ decode c = .ok i := by
  unfold decodeTableWord
  cases tableWord nbits w with
  | none => simp
  | some c => cases hc : decode c <;> simp [hc]

/-- Placing a table word and taking it off the port again leaves nothing behind but the command's own effect. -/
theorem step_withFetchWord {nbits w : Nat} {i : Instr} (h : decodeTableWord nbits w = some i) :
    step (s.withFetchWord nbits w) = exec i s := by
  obtain ⟨c, hc, hi⟩ := decodeTableWord_eq_some.1 h
  exact step_of_command (by rw [withFetchWord_port, hc, Option.getD_some]) hi

end step

/-! ## The digest port in `Finalized` -/

section digest
variable {s : State} {d : Digest}

theorem digestPort_of_finalized (hp : s.PHASE = .Finalized) (hd : s.DIGEST = some d) : digestPort s = .next d := by
  rw [digestPort, if_pos (DVALID_iff.2 hp), hd, readReg_some]

theorem hostRead_of_finalized (hp : s.PHASE = .Finalized) (hd : s.DIGEST = some d) :
    hostRead s = .next { s with out := s.out ++ [d] } := by
  rw [hostRead, digestPort_of_finalized hp hd, andThen_next]

end digest

/-! ## All that each command can answer as a next state: when it completes, and with which state -/

section commands
variable {s t : State}

theorem execReset_eq_next : execReset s = .next t ↔ t = clear s := by
  simp [execReset, eq_comm]

theorem execAppend_eq_next {imm8 : Byte} : execAppend imm8 s = .next t ↔
    (s.PHASE = .Created ∧ s.LEN < s.MAXLEN.val) ∧
    t = { s with MSG := s.MSG.writeBytes s.LEN [imm8], LEN := s.LEN + 1 } := by
  have hb : immValue imm8 < 256 ^ 1 := imm8.isLt
  unfold execAppend
  split
  · next hp =>
    split
    · next hl =>
      rw [memWrite_of_domain (.inl rfl) hb, immValue, beBytes_one]
      simp [hp, hl, eq_comm]
    · next hl => simp [hl]
  · next hp => simp [hp]

theorem execInit_eq_next : execInit s = .next t ↔
    s.PHASE = .Created ∧ t = { s with H := some IV, PHASE := .Initialized } := by
  unfold execInit
  split
  · next hp => simp [hp, eq_comm]
  · next hp => simp [hp]

/-- The three writes of R142, one after another, are one write of `padTail`. -/
theorem writeBytes_padTail (m : Memory) (L : Nat) :
    ((m.writeBytes L (beBytes 1 0x80)).writeBytes (L + 1) (List.replicate (zeroCount L) 0x00#8)).writeBytes
      (L + 1 + zeroCount L) (beBytes 8 (8 * L)) = m.writeBytes L (padTail L) := by
  have h := writeBytes_append (m.writeBytes L (beBytes 1 0x80)) (L + 1) (List.replicate (zeroCount L) 0x00#8)
    (beBytes 8 (8 * L))
  rw [List.length_replicate] at h
  exact h.symm

theorem execPad_eq_next : execPad s = .next t ↔
    (s.PHASE = .Initialized ∧ s.PADDED = false ∧ 8 * s.LEN < 256 ^ 8) ∧
    t = { s with MSG := s.MSG.writeBytes s.LEN (padTail s.LEN), LEN := s.LEN + (padTail s.LEN).length,
                 PADDED := true } := by
  have hlen : s.LEN + (padTail s.LEN).length = s.LEN + 1 + zeroCount s.LEN + 8 := by
    rw [padTail_length]; omega
  unfold execPad
  split
  · next hg =>
    rw [hlen, ← writeBytes_padTail]
    simp [memWrite_of_domain (s := s) (.inl rfl) (show 0x80 < 256 ^ 1 by decide), writeZeros_eq, andThen_eq_next,
      memWrite_eq_next, hg, and_assoc, eq_comm (b := t)]
  · next hg => simp [← and_assoc, hg]

theorem execExpand_eq_next : execExpand s = .next t ↔
    (s.PADDED = true ∧ s.blockLeft = true ∧ (s.PHASE = .Initialized ∨ s.PHASE = .Compressed)) ∧
    ∃ w, readWords s s.BLK 16 = .next w ∧ t = { s with W := some (schedule w 48), PHASE := .Expanded } := by
  unfold execExpand
  split
  · next hg => simp [hg, andThen_eq_next, eq_comm (b := t)]
  · next hg => simp [hg]

theorem loadVars_of_defined {x : Vector Word 8} (hH : s.H = some x) :
    loadVars s = .next { s with vars := some (Vars.ofWords x) } := by
  rw [loadVars, hH, readReg_some, andThen_next]

/-- COMPRESS on defined registers is the function `compress` (R177, R178). -/
theorem execCompress_of_defined {x : Vector Word 8} {w : Vector Word 64} (hp : s.PHASE = .Expanded)
    (hH : s.H = some x) (hW : s.W = some w) : execCompress s = .next
      { s with H := some (compress x w), BLK := s.BLK + 1, W := none, vars := none, PHASE := .Compressed } := by
  rw [execCompress, if_pos hp, loadVars_of_defined hH, andThen_next,
    rounds_eq (s := { s with vars := some (Vars.ofWords x) }) hW rfl, andThen_next]
  simp [addBlock, hH, compress]

/-- A round that completes has read the schedule (R175). -/
theorem W_defined_of_rounds {n : Nat} {hn : n + 1 ≤ 64} (h : rounds (n + 1) hn s = .next t) : ∃ w, s.W = some w := by
  induction n generalizing t with
  | zero =>
    obtain ⟨u, hu, h⟩ := andThen_eq_next.1 h
    obtain rfl : s = u := Host.Outcome.next.inj hu
    obtain ⟨v, -, h⟩ := andThen_eq_next.1 h
    obtain ⟨w, hw, -⟩ := andThen_eq_next.1 h
    exact ⟨w, readReg_eq_next.1 hw⟩
  | succ n ih =>
    obtain ⟨u, hu, -⟩ := andThen_eq_next.1 h
    exact ih hu

theorem execCompress_eq_next : execCompress s = .next t ↔
    s.PHASE = .Expanded ∧ ∃ x w, s.H = some x ∧ s.W = some w ∧
      t = { s with H := some (compress x w), BLK := s.BLK + 1, W := none, vars := none, PHASE := .Compressed } := by
  constructor
  · intro h
    have hp : s.PHASE = .Expanded := by
      by_contra hp
      simp [execCompress, hp] at h
    have hrun := h
    rw [execCompress, if_pos hp] at hrun
    obtain ⟨s1, hload, hrun⟩ := andThen_eq_next.1 hrun
    obtain ⟨x, hx, hs1⟩ := andThen_eq_next.1 hload
    obtain rfl := Host.Outcome.next.inj hs1
    obtain ⟨s2, hrounds, -⟩ := andThen_eq_next.1 hrun
    obtain ⟨w, hW⟩ := W_defined_of_rounds hrounds
    have hH := readReg_eq_next.1 hx
    rw [execCompress_of_defined hp hH hW] at h
    exact ⟨hp, x, w, hH, hW, (Host.Outcome.next.inj h).symm⟩
  · rintro ⟨hp, x, w, hH, hW, rfl⟩
    exact execCompress_of_defined hp hH hW

theorem execFinalize_eq_next : execFinalize s = .next t ↔
    (s.PHASE = .Compressed ∧ s.NBLK = some s.BLK) ∧ ∃ x, s.H = some x ∧
      t = { s with DIGEST := some (serialize x), PHASE := .Finalized, out := s.out ++ [serialize x] } := by
  unfold execFinalize
  split
  · next hg => simp [hg, andThen_eq_next, readReg_eq_next, eq_comm (b := t)]
  · next hg => simp [hg]

/-- The block loop of HASH writes the registers of the pipeline alone, and counts its blocks. -/
theorem runBlocks_frame {n : Nat} (h : runBlocks n s = .next t) :
    ∃ x v w p, t = { s with H := x, vars := v, W := w, PHASE := p, BLK := s.BLK + n } := by
  induction n generalizing s with
  | zero =>
    obtain rfl : s = t := by simpa [runBlocks] using h
    exact ⟨s.H, s.vars, s.W, s.PHASE, rfl⟩
  | succ n ih =>
    obtain ⟨s1, hexpand, h⟩ := andThen_eq_next.1 h
    obtain ⟨s2, hcompress, h⟩ := andThen_eq_next.1 h
    obtain ⟨-, w, -, rfl⟩ := execExpand_eq_next.1 hexpand
    obtain ⟨-, x, w', -, -, rfl⟩ := execCompress_eq_next.1 hcompress
    obtain ⟨x, v, w, p, rfl⟩ := ih h
    exact ⟨x, v, w, p, by simp [Nat.add_assoc, Nat.add_comm 1 n]⟩

/-- HASH is the command sequence of R213: INIT's writes, then PAD, the block loop and FINALIZE. -/
theorem execHash_eq_next : execHash s = .next t ↔
    s.PHASE = .Created ∧ ∃ u v, execPad { s with H := some IV, PHASE := .Initialized } = .next u ∧
      runBlocks (u.LEN / 64) u = .next v ∧ execFinalize v = .next t := by
  unfold execHash
  split
  · next hp =>
    rw [execInit_eq_next.2 ⟨hp, rfl⟩, andThen_next, andThen_eq_next]
    simp only [andThen_eq_next, readReg_eq_next, hp, true_and]
    constructor
    · rintro ⟨u, hpad, n, hn, v, hblocks, hfinalize⟩
      obtain ⟨-, rfl⟩ := NBLK_eq_some.1 hn
      exact ⟨u, v, hpad, hblocks, hfinalize⟩
    · rintro ⟨u, v, hpad, hblocks, hfinalize⟩
      have hpadded : u.PADDED = true := by
        obtain ⟨-, rfl⟩ := execPad_eq_next.1 hpad
        rfl
      exact ⟨u, hpad, u.LEN / 64, NBLK_padded hpadded, v, hblocks, hfinalize⟩
  · next hp => simp [hp]

/-- All that HASH writes: the buffer as PAD leaves it, the registers of the pipeline, and the digest of the last `H`,
handed to the host once. -/
theorem execHash_frame (h : execHash s = .next t) : ∃ x v w,
    t = { s with H := some x, vars := v, W := w, MSG := s.MSG.writeBytes s.LEN (padTail s.LEN),
                 LEN := s.LEN + (padTail s.LEN).length, PHASE := .Finalized, PADDED := true,
                 BLK := (s.LEN + (padTail s.LEN).length) / 64,
                 DIGEST := some (serialize x), out := s.out ++ [serialize x] } := by
  obtain ⟨-, u, v, hpad, hblocks, hfinalize⟩ := execHash_eq_next.1 h
  obtain ⟨-, rfl⟩ := execPad_eq_next.1 hpad
  obtain ⟨x', vs, w, p, rfl⟩ := runBlocks_frame hblocks
  obtain ⟨⟨-, hblk⟩, x, hx, rfl⟩ := execFinalize_eq_next.1 hfinalize
  obtain rfl : x' = some x := hx
  have hcount := (NBLK_eq_some.1 hblk).2
  exact ⟨x, vs, w, by simpa using hcount⟩

end commands

/-! ## What a command leaves on the host's side -/

section host
variable {s t : State} {i : Instr}

/-- No command writes the parameters or takes or adds anything at the command port, and the six that return no digest
hand the host nothing. -/
theorem exec_host_frame (h : exec i s = .next t) :
    t.MAXLEN = s.MAXLEN ∧ t.RESET_POLICY = s.RESET_POLICY ∧ t.port = s.port ∧
    (i ≠ .finalize → i ≠ .hash → t.out = s.out) := by
  cases i with
  | reset => obtain rfl := execReset_eq_next.1 h; exact ⟨rfl, rfl, rfl, fun _ _ => rfl⟩
  | append imm8 => obtain ⟨-, rfl⟩ := execAppend_eq_next.1 h; exact ⟨rfl, rfl, rfl, fun _ _ => rfl⟩
  | init => obtain ⟨-, rfl⟩ := execInit_eq_next.1 h; exact ⟨rfl, rfl, rfl, fun _ _ => rfl⟩
  | pad => obtain ⟨-, rfl⟩ := execPad_eq_next.1 h; exact ⟨rfl, rfl, rfl, fun _ _ => rfl⟩
  | expand => obtain ⟨-, w, -, rfl⟩ := execExpand_eq_next.1 h; exact ⟨rfl, rfl, rfl, fun _ _ => rfl⟩
  | compress => obtain ⟨-, x, w, -, -, rfl⟩ := execCompress_eq_next.1 h; exact ⟨rfl, rfl, rfl, fun _ _ => rfl⟩
  | finalize => obtain ⟨-, x, -, rfl⟩ := execFinalize_eq_next.1 h; exact ⟨rfl, rfl, rfl, fun hf _ => absurd rfl hf⟩
  | hash => obtain ⟨x, v, w, rfl⟩ := execHash_frame h; exact ⟨rfl, rfl, rfl, fun _ hh => absurd rfl hh⟩

/-- The two others hand over one digest, the `DIGEST` they write (R201, R213). -/
theorem exec_hands_out_the_digest (hi : i = .finalize ∨ i = .hash) (h : exec i s = .next t) :
    ∃ d, t.DIGEST = some d ∧ t.out = s.out ++ [d] := by
  rcases hi with rfl | rfl
  · obtain ⟨-, x, -, rfl⟩ := execFinalize_eq_next.1 h; exact ⟨serialize x, rfl, rfl⟩
  · obtain ⟨x, v, w, rfl⟩ := execHash_frame h; exact ⟨serialize x, rfl, rfl⟩

end host

/-! ## The obligations -/

/-- Settles O39: the frame of each command is read off its next state; a read in `Finalized` appends `DIGEST`. -/
theorem commandsLeaveParametersAndPortAlone : Obligations.CommandsLeaveParametersAndPortAlone := by
  refine ⟨fun s t i h => ?_, fun s d => hostRead_of_finalized, fun s d rest hport hp hd => ?_⟩
  · obtain ⟨hmax, hpolicy, hport, hout⟩ := exec_host_frame h
    exact ⟨hmax, hpolicy, hport, hout, fun hi => exec_hands_out_the_digest hi h⟩
  · rw [step_of_readDigest hport]
    exact hostRead_of_finalized hp hd

/-- Settles O5, by the equations of the step. -/
theorem stepRunsTheDecodedCommand : Obligations.StepRunsTheDecodedCommand :=
  ⟨fun _ _ _ _ => step_of_command, fun _ _ _ _ => step_withFetchWord, fun _ _ _ => step_of_hardReset,
    fun _ _ => step_of_readDigest⟩

/-- Settles O6, by the equation of the step on an empty port. -/
theorem silentHostLeavesTheState : Obligations.SilentHostLeavesTheState := fun _ => step_of_silent

end Sys2Proof.Machine

/-! The proofs of the state family: the invariant of R37 phase by phase, the commands that keep it and the meaning of
the state (R215), the reads that no command makes of an undefined register (R21), and the writers of `BLK` and `PADDED`
(R25, R32). -/

namespace Sys2Proof.Machine

/-! ## What a step can do, and what a property of the state needs to be kept by it -/

/-- `f` keeps `P`: whenever it answers a next state from a state with `P`, that state has `P`. -/
def Keeps (f : State → Result) (P : State → Prop) : Prop := ∀ s t, P s → f s = .next t → P t

section keeps
variable {P : State → Prop}

/-- The outcomes of a step: silence, a command, a reserved word, a hardware reset, a digest read (R9, R11). -/
theorem step_cases (s : State) :
    step s = .next s ∨ (∃ i rest, step s = exec i { s with port := rest }) ∨
    step s = .refused .reservedEncoding ∨ (∃ rest, step s = hardReset { s with port := rest }) ∨
    ∃ rest, step s = hostRead { s with port := rest } := by
  cases hport : s.port with
  | nil => exact .inl (step_of_silent hport)
  | cons x rest =>
    cases x with
    | command w =>
      cases hw : decode w with
      | ok i => exact .inr (.inl ⟨i, rest, step_of_command hport hw⟩)
      | reserved why => exact .inr (.inr (.inl (by simp [step, hport, hw])))
    | hardReset running => exact .inr (.inr (.inr (.inl ⟨rest, step_of_hardReset hport⟩)))
    | readDigest => exact .inr (.inr (.inr (.inr ⟨rest, step_of_readDigest hport⟩)))

/-- What every command, the hardware reset and the digest read keep, every step keeps. -/
theorem step_keeps (hport : ∀ s rest, P s → P { s with port := rest }) (hexec : ∀ i, Keeps (exec i) P)
    (hreset : Keeps hardReset P) (hread : Keeps hostRead P) : Keeps step P := by
  intro s t hs h
  rcases step_cases s with hstep | ⟨i, rest, hstep⟩ | hstep | ⟨rest, hstep⟩ | ⟨rest, hstep⟩ <;> rw [hstep] at h
  · exact Host.Outcome.next.inj h ▸ hs
  · exact hexec i _ t (hport s rest hs) h
  · cases h
  · exact hreset _ t (hport s rest hs) h
  · exact hread _ t (hport s rest hs) h

theorem runBlocks_keeps (hexpand : Keeps execExpand P) (hcompress : Keeps execCompress P) (n : Nat) :
    Keeps (runBlocks n) P := by
  induction n with
  | zero => exact fun s t hs h => Host.Outcome.next.inj h ▸ hs
  | succ n ih =>
    intro s t hs h
    obtain ⟨s1, h1, h⟩ := andThen_eq_next.1 h
    obtain ⟨s2, h2, h⟩ := andThen_eq_next.1 h
    exact ih s2 t (hcompress s1 s2 (hexpand s s1 hs h1) h2) h

/-- HASH keeps what the five commands inside it keep (R213), and so the eight commands keep what the other seven do. -/
theorem exec_keeps (hreset : Keeps execReset P) (happend : ∀ imm8, Keeps (execAppend imm8) P)
    (hinit : Keeps execInit P) (hpad : Keeps execPad P) (hexpand : Keeps execExpand P)
    (hcompress : Keeps execCompress P) (hfinalize : Keeps execFinalize P) (i : Instr) : Keeps (exec i) P := by
  cases i with
  | reset => exact hreset
  | append imm8 => exact happend imm8
  | init => exact hinit
  | pad => exact hpad
  | expand => exact hexpand
  | compress => exact hcompress
  | finalize => exact hfinalize
  | hash =>
    intro s t hs h
    obtain ⟨hp, u, v, h1, h2, h3⟩ := execHash_eq_next.1 h
    have hu : P u := hpad _ u (hinit s _ hs (execInit_eq_next.2 ⟨hp, rfl⟩)) h1
    exact hfinalize v t (runBlocks_keeps hexpand hcompress _ u v hu h2) h3

end keeps

/-! ## The invariant, phase by phase (R37) -/

section phases
variable {s : State}

theorem inv_iff_of_created (hp : s.PHASE = .Created) : s.Inv ↔ s.BufferOk ∧ s.LengthOk ∧
    (s.PADDED = false ∧ s.BLK = 0) ∧ s.H = none ∧ s.W = none ∧ s.vars = none ∧ s.DIGEST = none := by
  simp [State.Inv, State.PhaseOk, State.DefinedOk, hp]

theorem inv_iff_of_initialized (hp : s.PHASE = .Initialized) : s.Inv ↔ s.BufferOk ∧ s.LengthOk ∧
    s.BLK = 0 ∧ (∃ x, s.H = some x) ∧ s.W = none ∧ s.vars = none ∧ s.DIGEST = none := by
  simp [State.Inv, State.PhaseOk, State.DefinedOk, hp, ← Option.isSome_iff_exists]

theorem inv_iff_of_expanded (hp : s.PHASE = .Expanded) : s.Inv ↔ s.BufferOk ∧ s.LengthOk ∧
    (s.PADDED = true ∧ s.BLK < s.LEN / 64) ∧ (∃ x, s.H = some x) ∧ (∃ w, s.W = some w) ∧ s.vars = none ∧
    s.DIGEST = none := by
  simp [State.Inv, State.PhaseOk, State.DefinedOk, hp, ← Option.isSome_iff_exists]

theorem inv_iff_of_compressed (hp : s.PHASE = .Compressed) : s.Inv ↔ s.BufferOk ∧ s.LengthOk ∧
    (s.PADDED = true ∧ 1 ≤ s.BLK ∧ s.BLK ≤ s.LEN / 64) ∧ (∃ x, s.H = some x) ∧ s.W = none ∧ s.vars = none ∧
    s.DIGEST = none := by
  simp [State.Inv, State.PhaseOk, State.DefinedOk, hp, ← Option.isSome_iff_exists]

theorem inv_iff_of_finalized (hp : s.PHASE = .Finalized) : s.Inv ↔ s.BufferOk ∧ s.LengthOk ∧
    (s.PADDED = true ∧ s.BLK = s.LEN / 64) ∧ (∃ x, s.H = some x) ∧ s.W = none ∧ s.vars = none ∧
    s.DIGEST = s.H.map serialize := by
  simp [State.Inv, State.PhaseOk, State.DefinedOk, hp, ← Option.isSome_iff_exists]

/-- What the two phases from which EXPAND runs have in common. -/
theorem registers_of_expandable (h : s.Inv) (hp : s.PHASE = .Initialized ∨ s.PHASE = .Compressed) :
    (∃ x, s.H = some x) ∧ s.vars = none ∧ s.DIGEST = none := by
  rcases hp with hp | hp
  · obtain ⟨-, -, -, hH, -, hvars, hdigest⟩ := (inv_iff_of_initialized hp).1 h
    exact ⟨hH, hvars, hdigest⟩
  · obtain ⟨-, -, -, hH, -, hvars, hdigest⟩ := (inv_iff_of_compressed hp).1 h
    exact ⟨hH, hvars, hdigest⟩

/-- `DIGEST` holds a value in `Finalized` alone (R29). -/
theorem finalized_of_digest {d : Digest} (h : s.Inv) (hd : s.DIGEST = some d) : s.PHASE = .Finalized := by
  obtain ⟨-, -, -, -, -, -, -, hnone⟩ := h
  by_contra hp
  simp [hnone hp] at hd

/-- Bytes written at `LEN` extend a buffer in order. -/
theorem writeBytes_bufferOk (h : s.BufferOk) (bs : List Byte) :
    (s.MSG.writeBytes s.LEN bs).map Prod.fst = List.range (s.LEN + bs.length) := by
  obtain ⟨hm, hl⟩ := bufferOk_bytes h
  rw [hl, hm, bytes_ofBytesAt, writeBytes_ofBytes, addresses_ofBytesAt, List.length_append, List.range_eq_range']

end phases

/-! ## The commands keep the invariant -/

theorem clear_inv (s : State) : (clear s).Inv :=
  (inv_iff_of_created rfl).2 ⟨rfl, ⟨fun _ => Nat.zero_le _, nofun⟩, ⟨rfl, rfl⟩, rfl, rfl, rfl, rfl⟩

theorem execAppend_keeps_inv (imm8 : Byte) : Keeps (execAppend imm8) State.Inv := by
  intro s t hs h
  obtain ⟨⟨hp, hroom⟩, rfl⟩ := execAppend_eq_next.1 h
  obtain ⟨hbuf, -, hphase, hregs⟩ := (inv_iff_of_created hp).1 hs
  refine Iff.mpr (inv_iff_of_created hp)
    ⟨writeBytes_bufferOk hbuf [imm8], ⟨fun _ => hroom, fun hpad => ?_⟩, hphase, hregs⟩
  exact absurd (hphase.1.symm.trans hpad) (by decide)

theorem execInit_keeps_inv : Keeps execInit State.Inv := by
  intro s t hs h
  obtain ⟨hp, rfl⟩ := execInit_eq_next.1 h
  obtain ⟨hbuf, hlen, ⟨-, hblk⟩, -, hregs⟩ := (inv_iff_of_created hp).1 hs
  exact Iff.mpr (inv_iff_of_initialized rfl) ⟨hbuf, hlen, hblk, ⟨IV, rfl⟩, hregs⟩

/-- R141 brings the length to a multiple of 64 within 72 bytes. -/
theorem padTail_lengthOk {L max : Nat} (h : L ≤ max) :
    (L + (padTail L).length) % 64 = 0 ∧ 64 ≤ L + (padTail L).length ∧ L + (padTail L).length ≤ max + 72 := by
  have := zeroCount_spec L
  rw [padTail_length]
  omega

theorem execPad_keeps_inv : Keeps execPad State.Inv := by
  intro s t hs h
  obtain ⟨⟨hp, hpad, -⟩, rfl⟩ := execPad_eq_next.1 h
  obtain ⟨hbuf, hlen, hregs⟩ := (inv_iff_of_initialized hp).1 hs
  exact Iff.mpr (inv_iff_of_initialized hp)
    ⟨writeBytes_bufferOk hbuf _, ⟨nofun, fun _ => padTail_lengthOk (hlen.1 hpad)⟩, hregs⟩

theorem execExpand_keeps_inv : Keeps execExpand State.Inv := by
  intro s t hs h
  obtain ⟨⟨-, hleft, hp⟩, w, -, rfl⟩ := execExpand_eq_next.1 h
  obtain ⟨hH, hvars, hdigest⟩ := registers_of_expandable hs hp
  obtain ⟨hbuf, hlen, -⟩ := hs
  exact Iff.mpr (inv_iff_of_expanded rfl) ⟨hbuf, hlen, blockLeft_iff.1 hleft, hH, ⟨_, rfl⟩, hvars, hdigest⟩

theorem execCompress_keeps_inv : Keeps execCompress State.Inv := by
  intro s t hs h
  obtain ⟨hp, x, w, -, -, rfl⟩ := execCompress_eq_next.1 h
  obtain ⟨hbuf, hlen, ⟨hpad, hblk⟩, -, -, -, hdigest⟩ := (inv_iff_of_expanded hp).1 hs
  exact Iff.mpr (inv_iff_of_compressed rfl)
    ⟨hbuf, hlen, ⟨hpad, Nat.le_add_left 1 _, hblk⟩, ⟨_, rfl⟩, rfl, rfl, hdigest⟩

theorem execFinalize_keeps_inv : Keeps execFinalize State.Inv := by
  intro s t hs h
  obtain ⟨⟨hp, hblk⟩, x, hx, rfl⟩ := execFinalize_eq_next.1 h
  obtain ⟨hbuf, hlen, -, hH, hW, hvars, -⟩ := (inv_iff_of_compressed hp).1 hs
  exact Iff.mpr (inv_iff_of_finalized rfl)
    ⟨hbuf, hlen, NBLK_eq_some.1 hblk, hH, hW, hvars, (congrArg (Option.map serialize) hx).symm⟩

theorem exec_keeps_inv (i : Instr) : Keeps (exec i) State.Inv :=
  exec_keeps (fun s _ _ h => execReset_eq_next.1 h ▸ clear_inv s) execAppend_keeps_inv execInit_keeps_inv
    execPad_keeps_inv execExpand_keeps_inv execCompress_keeps_inv execFinalize_keeps_inv i

/-- A digest read answers only in `Finalized`, and changes what the host holds alone (R56). -/
theorem hostRead_eq_next {s t : State} : hostRead s = .next t ↔
    s.PHASE = .Finalized ∧ ∃ d, s.DIGEST = some d ∧ t = { s with out := s.out ++ [d] } := by
  unfold hostRead digestPort
  split
  · next hv => simp [DVALID_iff.1 hv, andThen_eq_next, readReg_eq_next, eq_comm (b := t)]
  · next hv => simp [← DVALID_iff, hv]

theorem hardReset_keeps_inv : Keeps hardReset State.Inv :=
  fun s _ _ h => Host.Outcome.next.inj h ▸ clear_inv s

theorem hostRead_keeps_inv : Keeps hostRead State.Inv := by
  intro s t hs h
  obtain ⟨-, d, -, rfl⟩ := hostRead_eq_next.1 h
  exact hs

theorem step_keeps_inv : Keeps step State.Inv :=
  step_keeps (fun _ _ hs => hs) exec_keeps_inv hardReset_keeps_inv hostRead_keeps_inv

/-! ## No command faults from the invariant (R21, R240) -/

/-- EXPAND's reads over a buffer that holds `p`: the words of block `j` of `p` (R52, R164). -/
theorem readWords_of_buffer {s : State} {p : List Byte} {j : Nat} (hmsg : s.MSG = Memory.ofBytesAt 0 p)
    (hlen : s.LEN = p.length) (hj : j < s.LEN / 64) :
    ∃ B : Vector Byte 64, splitBlocks (j + 1) p = splitBlocks j p ++ [B] ∧
      readWords s j 16 = .next (groupWords B 16 (Nat.le_refl 16)) := by
  obtain ⟨B, hsplit, hB⟩ := splitBlocks_succ j p (by omega)
  exact ⟨B, hsplit, readWords_eq (by omega) (fun k hk => by rw [hmsg, read_ofBytes, hB k hk]) 16 _⟩

theorem andThen_ne_fault {α β : Type} {o : Host.Outcome α Fault Refusal} {f : α → Host.Outcome β Fault Refusal}
    {r : Fault} (ho : o ≠ .fault r) (hf : ∀ a, o = .next a → f a ≠ .fault r) : andThen o f ≠ .fault r := by
  rw [Ne, andThen_eq_fault]
  rintro (h | ⟨a, ha, h⟩)
  · exact ho h
  · exact hf a ha h

section noFault
variable {s : State} {f : Fault}

theorem execAppend_ne_fault (imm8 : Byte) : execAppend imm8 s ≠ .fault f := by
  have hb : immValue imm8 < 256 ^ 1 := imm8.isLt
  unfold execAppend
  split
  · split
    · simp [memWrite_of_domain (.inl rfl) hb]
    · simp
  · simp

theorem execInit_ne_fault : execInit s ≠ .fault f := by
  unfold execInit
  split <;> simp

theorem execPad_ne_fault (h : s.Inv) : execPad s ≠ .fault f := by
  by_cases hg : s.PHASE = .Initialized ∧ s.PADDED = false
  · obtain ⟨-, ⟨hlen, -⟩, -⟩ := h
    have hbits : 8 * s.LEN < 256 ^ 8 := by
      have := hlen hg.2
      have := s.MAXLEN.isLt
      omega
    rw [execPad_eq_next.2 ⟨⟨hg.1, hg.2, hbits⟩, rfl⟩]
    simp
  · simp [execPad, hg]

theorem execExpand_ne_fault (h : s.Inv) : execExpand s ≠ .fault f := by
  unfold execExpand
  split
  · next hg =>
    obtain ⟨hmsg, hlen⟩ := bufferOk_bytes h.1
    obtain ⟨B, -, hread⟩ := readWords_of_buffer hmsg hlen (blockLeft_iff.1 hg.2.1).2
    simp [hread]
  · simp

theorem execCompress_ne_fault (h : s.Inv) : execCompress s ≠ .fault f := by
  by_cases hp : s.PHASE = .Expanded
  · obtain ⟨-, -, -, ⟨x, hH⟩, ⟨w, hW⟩, -⟩ := (inv_iff_of_expanded hp).1 h
    simp [execCompress_of_defined hp hH hW]
  · simp [execCompress, hp]

theorem execFinalize_ne_fault (h : s.Inv) : execFinalize s ≠ .fault f := by
  unfold execFinalize
  split
  · next hg =>
    obtain ⟨-, -, -, ⟨x, hH⟩, -⟩ := (inv_iff_of_compressed hg.1).1 h
    simp [hH]
  · simp

theorem runBlocks_ne_fault (n : Nat) (h : s.Inv) : runBlocks n s ≠ .fault f := by
  induction n generalizing s with
  | zero => simp [runBlocks]
  | succ n ih =>
    refine andThen_ne_fault (execExpand_ne_fault h) fun s1 h1 => ?_
    have hs1 := execExpand_keeps_inv s s1 h h1
    exact andThen_ne_fault (execCompress_ne_fault hs1) fun s2 h2 => ih (execCompress_keeps_inv s1 s2 hs1 h2)

theorem execHash_ne_fault (h : s.Inv) : execHash s ≠ .fault f := by
  unfold execHash
  split
  · refine andThen_ne_fault execInit_ne_fault fun s1 h1 => ?_
    have hs1 := execInit_keeps_inv s s1 h h1
    refine andThen_ne_fault (execPad_ne_fault hs1) fun s2 h2 => ?_
    have hs2 := execPad_keeps_inv s1 s2 hs1 h2
    obtain ⟨-, rfl⟩ := execPad_eq_next.1 h2
    rw [NBLK_padded rfl, readReg_some, andThen_next]
    refine andThen_ne_fault (runBlocks_ne_fault _ hs2) fun s3 h3 => execFinalize_ne_fault ?_
    exact runBlocks_keeps execExpand_keeps_inv execCompress_keeps_inv _ _ s3 hs2 h3
  · simp

theorem exec_ne_fault (i : Instr) (h : s.Inv) : exec i s ≠ .fault f := by
  cases i with
  | reset => exact nofun
  | append imm8 => exact execAppend_ne_fault imm8
  | init => exact execInit_ne_fault
  | pad => exact execPad_ne_fault h
  | expand => exact execExpand_ne_fault h
  | compress => exact execCompress_ne_fault h
  | finalize => exact execFinalize_ne_fault h
  | hash => exact execHash_ne_fault h

theorem hostRead_ne_fault (h : s.Inv) : hostRead s ≠ .fault f := by
  by_cases hp : s.PHASE = .Finalized
  · obtain ⟨-, -, -, ⟨x, hH⟩, -, -, hdigest⟩ := (inv_iff_of_finalized hp).1 h
    rw [hostRead_of_finalized hp (d := serialize x) (by rw [hdigest, hH, Option.map_some])]
    simp
  · simp [hostRead, digestPort, DVALID_iff, hp]

theorem step_ne_fault (h : s.Inv) : step s ≠ .fault f := by
  rcases step_cases s with hstep | ⟨i, rest, hstep⟩ | hstep | ⟨rest, hstep⟩ | ⟨rest, hstep⟩ <;> rw [hstep]
  · exact nofun
  · exact exec_ne_fault i h
  · exact nofun
  · exact nofun
  · exact hostRead_ne_fault h

end noFault

/-! ## The meaning of the state, and that the commands keep it (R215) -/

/-- The word of eight bytes that PAD writes is the length field of `pad` (R54, R108). -/
theorem beBytes_eight (v : Nat) : beBytes 8 v = bytesBe64 (BitVec.ofNat 64 v) := by
  have hbyte (k : Nat) (hk : k ≤ 56) : BitVec.ofNat 8 (v >>> k) = (BitVec.ofNat 64 v).extractLsb' k 8 := by
    refine BitVec.eq_of_getLsbD_eq fun j hj => ?_
    rw [BitVec.getLsbD_ofNat, BitVec.getLsbD_extractLsb', BitVec.getLsbD_ofNat, Nat.testBit_shiftRight]
    simp [show k + j < 64 by omega]
  simp only [beBytes, bytesBe64, List.cons.injEq, and_true]
  exact ⟨hbyte 56 (by decide), hbyte 48 (by decide), hbyte 40 (by decide), hbyte 32 (by decide),
    hbyte 24 (by decide), hbyte 16 (by decide), hbyte 8 (by decide), hbyte 0 (by decide)⟩

/-- The function `pad` appends the bytes that PAD writes (R140, R142). -/
theorem pad_eq (m : List Byte) : pad m = m ++ padTail m.length := by
  simp [pad, padTail, beBytes_eight]

/-- A padded message is `blockCount` whole blocks (R141). -/
theorem pad_length_div (m : List Byte) : (pad m).length / 64 = blockCount m.length := by
  have := blockCount_eq m.length
  rw [pad_length]
  omega

section meaning
variable {s : State}

/-- Before padding, the meaning is that `H` holds the IV once INIT has run. -/
theorem meaning_iff_of_unpadded (hpad : s.PADDED = false) :
    s.Meaning ↔ (s.PHASE ≠ .Created → s.H = some IV) := by
  simp [State.Meaning, hpad]

/-- After padding, the buffer is `pad m` of one message `m`, and the registers are values computed from it. -/
theorem meaning_iff_of_padded (hpad : s.PADDED = true) : s.Meaning ↔ ∃ m : List Byte, s.PaddedAs m ∧
    (s.PHASE ≠ .Created → s.H = some (foldBlocks IV (splitBlocks s.BLK (pad m)))) ∧
    (s.PHASE = .Expanded → ∃ B : Vector Byte 64,
      splitBlocks (s.BLK + 1) (pad m) = splitBlocks s.BLK (pad m) ++ [B] ∧ s.W = some (expand B)) ∧
    (s.PHASE = .Finalized → s.DIGEST = some (hashMessage m)) := by
  simp [State.Meaning, hpad]

end meaning

/-- The invariant and the meaning together: what the commands keep of the state. -/
def State.Sound (s : State) : Prop := s.Inv ∧ s.Meaning

/-- A command that keeps the invariant and, from sound states, the meaning keeps both. -/
theorem keeps_sound {f : State → Result} (hinv : Keeps f State.Inv)
    (hmeaning : ∀ s t, s.Inv → s.Meaning → f s = .next t → t.Meaning) : Keeps f State.Sound :=
  fun s t hs h => ⟨hinv s t hs.1 h, hmeaning s t hs.1 hs.2 h⟩

theorem clear_sound (s : State) : (clear s).Sound :=
  ⟨clear_inv s, (meaning_iff_of_unpadded rfl).2 fun hp => absurd rfl hp⟩

theorem execAppend_keeps_sound (imm8 : Byte) : Keeps (execAppend imm8) State.Sound := by
  refine keeps_sound (execAppend_keeps_inv imm8) fun s t hinv _ h => ?_
  obtain ⟨⟨hp, -⟩, rfl⟩ := execAppend_eq_next.1 h
  obtain ⟨-, -, ⟨hpad, -⟩, -⟩ := (inv_iff_of_created hp).1 hinv
  exact Iff.mpr (meaning_iff_of_unpadded hpad) fun hp' => absurd hp hp'

theorem execInit_keeps_sound : Keeps execInit State.Sound := by
  refine keeps_sound execInit_keeps_inv fun s t hinv _ h => ?_
  obtain ⟨hp, rfl⟩ := execInit_eq_next.1 h
  obtain ⟨-, -, ⟨hpad, -⟩, -⟩ := (inv_iff_of_created hp).1 hinv
  exact Iff.mpr (meaning_iff_of_unpadded hpad) fun _ => rfl

/-- PAD fixes the message: the bytes the buffer held. -/
theorem execPad_keeps_sound : Keeps execPad State.Sound := by
  refine keeps_sound execPad_keeps_inv fun s t hinv hmeaning h => ?_
  obtain ⟨⟨hp, hpad, -⟩, rfl⟩ := execPad_eq_next.1 h
  obtain ⟨hbuf, hlen, hblk, -⟩ := (inv_iff_of_initialized hp).1 hinv
  obtain ⟨hmsg, hcount⟩ := bufferOk_bytes hbuf
  have hH : s.H = some IV := (meaning_iff_of_unpadded hpad).1 hmeaning (by simp [hp])
  refine Iff.mpr (meaning_iff_of_padded rfl) ⟨s.MSG.bytes, ⟨?_, ?_, hcount ▸ hlen.1 hpad⟩, fun _ => ?_, ?_, ?_⟩
  · show s.MSG.writeBytes s.LEN (padTail s.LEN) = _
    rw [pad_eq, ← hcount, ← writeBytes_ofBytes, ← hmsg, ← hcount]
  · rw [pad_eq, List.length_append, ← hcount]
  · simp [hH, hblk]
  · simp [hp]
  · simp [hp]

/-- EXPAND reads block `BLK` of the padded message. -/
theorem execExpand_keeps_sound : Keeps execExpand State.Sound := by
  refine keeps_sound execExpand_keeps_inv fun s t hinv hmeaning h => ?_
  obtain ⟨⟨hpad, hleft, hp⟩, w, hw, rfl⟩ := execExpand_eq_next.1 h
  obtain ⟨m, hm, hH, -⟩ := (meaning_iff_of_padded hpad).1 hmeaning
  obtain ⟨B, hsplit, hread⟩ := readWords_of_buffer hm.1 hm.2.1 (blockLeft_iff.1 hleft).2
  obtain rfl := Host.Outcome.next.inj (hread.symm.trans hw)
  have hcreated : s.PHASE ≠ .Created := by rcases hp with hp | hp <;> simp [hp]
  exact Iff.mpr (meaning_iff_of_padded hpad) ⟨m, hm, fun _ => hH hcreated, fun _ => ⟨B, hsplit, rfl⟩, nofun⟩

/-- COMPRESS folds block `BLK` after the blocks before it. -/
theorem execCompress_keeps_sound : Keeps execCompress State.Sound := by
  refine keeps_sound execCompress_keeps_inv fun s t hinv hmeaning h => ?_
  obtain ⟨hp, x, w, hx, hw, rfl⟩ := execCompress_eq_next.1 h
  obtain ⟨-, -, ⟨hpad, -⟩, -⟩ := (inv_iff_of_expanded hp).1 hinv
  obtain ⟨m, hm, hH, hW, -⟩ := (meaning_iff_of_padded hpad).1 hmeaning
  obtain ⟨B, hsplit, hB⟩ := hW hp
  obtain rfl := Option.some.inj (hx.symm.trans (hH (by simp [hp])))
  obtain rfl := Option.some.inj (hw.symm.trans hB)
  refine Iff.mpr (meaning_iff_of_padded hpad) ⟨m, hm, fun _ => ?_, nofun, nofun⟩
  rw [hsplit, foldBlocks_append]

/-- FINALIZE runs when `BLK` counts every block of the padded message, so what it serialises is the hash. -/
theorem execFinalize_keeps_sound : Keeps execFinalize State.Sound := by
  refine keeps_sound execFinalize_keeps_inv fun s t hinv hmeaning h => ?_
  obtain ⟨⟨hp, hblk⟩, x, hx, rfl⟩ := execFinalize_eq_next.1 h
  obtain ⟨hpad, hall⟩ := NBLK_eq_some.1 hblk
  obtain ⟨m, hm, hH, -⟩ := (meaning_iff_of_padded hpad).1 hmeaning
  have hfold := hH (by simp [hp])
  refine Iff.mpr (meaning_iff_of_padded hpad) ⟨m, hm, fun _ => hfold, nofun, fun _ => ?_⟩
  obtain rfl := Option.some.inj (hx.symm.trans hfold)
  show some (serialize _) = some (serialize _)
  rw [hall, hm.2.1, pad_length_div]

theorem exec_keeps_sound (i : Instr) : Keeps (exec i) State.Sound :=
  exec_keeps (fun s _ _ h => execReset_eq_next.1 h ▸ clear_sound s) execAppend_keeps_sound execInit_keeps_sound
    execPad_keeps_sound execExpand_keeps_sound execCompress_keeps_sound execFinalize_keeps_sound i

theorem hostRead_keeps_sound : Keeps hostRead State.Sound := by
  intro s t hs h
  obtain ⟨-, d, -, rfl⟩ := hostRead_eq_next.1 h
  exact hs

theorem step_keeps_sound : Keeps step State.Sound :=
  step_keeps (fun _ _ hs => hs) exec_keeps_sound (fun s _ _ h => Host.Outcome.next.inj h ▸ clear_sound s)
    hostRead_keeps_sound

/-! ## What the host is handed (R36) -/

/-- In a sound state, a value in `DIGEST` is the hash of a message the engine can hold. -/
theorem genuine_of_digest {s : State} {d : Digest} (hs : s.Sound) (hd : s.DIGEST = some d) : s.Genuine d := by
  obtain ⟨hinv, hmeaning⟩ := hs
  have hp := finalized_of_digest hinv hd
  obtain ⟨-, -, ⟨hpad, -⟩, -⟩ := (inv_iff_of_finalized hp).1 hinv
  obtain ⟨m, hm, -, -, hhash⟩ := (meaning_iff_of_padded hpad).1 hmeaning
  exact ⟨m, hm.2.2, Option.some.inj (hd.symm.trans (hhash hp))⟩

/-- A command hands the host nothing but the `DIGEST` of the state it leaves. -/
theorem exec_out {s t : State} {i : Instr} {d : Digest} (h : exec i s = .next t) (hd : d ∈ t.out) :
    d ∈ s.out ∨ t.DIGEST = some d := by
  by_cases hi : i = .finalize ∨ i = .hash
  · obtain ⟨d', hdigest, hout⟩ := exec_hands_out_the_digest hi h
    rw [hout, List.mem_append, List.mem_singleton] at hd
    exact hd.imp_right fun (hd : d = d') => hd ▸ hdigest
  · obtain ⟨-, -, -, hout⟩ := exec_host_frame h
    rw [not_or] at hi
    exact .inl (hout hi.1 hi.2 ▸ hd)

/-- Nor does any step; and no step writes `MAXLEN`. -/
theorem step_out {s t : State} (h : step s = .next t) :
    t.MAXLEN = s.MAXLEN ∧ ∀ d ∈ t.out, d ∈ s.out ∨ t.DIGEST = some d := by
  rcases step_cases s with hstep | ⟨i, rest, hstep⟩ | hstep | ⟨rest, hstep⟩ | ⟨rest, hstep⟩ <;> rw [hstep] at h
  · obtain rfl := Host.Outcome.next.inj h
    exact ⟨rfl, fun _ => .inl⟩
  · exact ⟨(exec_host_frame h).1, fun _ hd => (exec_out h hd :)⟩
  · cases h
  · obtain rfl := Host.Outcome.next.inj h
    exact ⟨rfl, fun _ => .inl⟩
  · obtain ⟨-, d', hdigest, rfl⟩ := hostRead_eq_next.1 h
    refine ⟨rfl, fun d hd => ?_⟩
    rw [List.mem_append, List.mem_singleton] at hd
    exact hd.imp_right fun (hd : d = d') => hd ▸ hdigest

/-! ## Reads of undefined registers (R21) -/

section undefined
variable {s : State}

theorem loadVars_of_undefined (hH : s.H = none) : loadVars s = .fault (.undefinedRead .H) := by
  simp [loadVars, hH]

theorem roundOp_of_undefined (i : Fin 64) (hvars : s.vars = none) : roundOp i s = .fault (.undefinedRead .vars) := by
  simp [roundOp, hvars]

/-- The first of the rounds already reads the schedule. -/
theorem rounds_of_W_undefined {v : Vars} (hvars : s.vars = some v) (hW : s.W = none) (n : Nat) (hn : n + 1 ≤ 64) :
    rounds (n + 1) hn s = .fault (.undefinedRead .W) := by
  induction n with
  | zero => simp [rounds, roundOp, hvars, hW]
  | succ n ih => rw [rounds, ih, andThen_fault]

theorem execCompress_of_H_undefined (hp : s.PHASE = .Expanded) (hH : s.H = none) :
    execCompress s = .fault (.undefinedRead .H) := by
  rw [execCompress, if_pos hp, loadVars_of_undefined hH, andThen_fault]

theorem execCompress_of_W_undefined {x : Vector Word 8} (hp : s.PHASE = .Expanded) (hH : s.H = some x)
    (hW : s.W = none) : execCompress s = .fault (.undefinedRead .W) := by
  rw [execCompress, if_pos hp, loadVars_of_defined hH, andThen_next,
    rounds_of_W_undefined (s := { s with vars := some (Vars.ofWords x) }) rfl hW, andThen_fault]

theorem execFinalize_of_H_undefined (hp : s.PHASE = .Compressed) (hblk : s.NBLK = some s.BLK) (hH : s.H = none) :
    execFinalize s = .fault (.undefinedRead .H) := by
  rw [execFinalize, if_pos ⟨hp, hblk⟩, hH, readReg_none, andThen_fault]

theorem digestPort_of_undefined (hp : s.PHASE = .Finalized) (hd : s.DIGEST = none) :
    digestPort s = .fault (.undefinedRead .DIGEST) := by
  rw [digestPort, if_pos (DVALID_iff.2 hp), hd, readReg_none]

end undefined

/-! ## The obligations -/

/-- Settles O28: every command keeps the invariant phase by phase, HASH because the commands inside it do. -/
theorem stepKeepsTheInvariant : Obligations.StepKeepsTheInvariant := step_keeps_inv

/-- Settles O33: a step hands over at most the `DIGEST` of the state it leaves, which is sound again. -/
theorem everyDigestHandedOutIsAHash : Obligations.EveryDigestHandedOutIsAHash := by
  intro s t hinv hmeaning hgenuine h d hd
  obtain ⟨hmax, hout⟩ := step_out h
  rcases hout d hd with hold | hnew
  · obtain ⟨m, hm, rfl⟩ := hgenuine d hold
    exact ⟨m, hmax ▸ hm, rfl⟩
  · exact genuine_of_digest (step_keeps_sound s t ⟨hinv, hmeaning⟩ h) hnew

/-- Settles O25, one equation for each read that finds nothing and each access outside its domain. -/
theorem modelFaultsWhereNothingIsDefined : Obligations.ModelFaultsWhereNothingIsDefined :=
  ⟨fun _ => execCompress_of_H_undefined, fun _ _ => execCompress_of_W_undefined,
    fun _ i => roundOp_of_undefined i,
    fun _ hp hpad hblk => execFinalize_of_H_undefined hp (NBLK_eq_some.2 ⟨hpad, hblk⟩),
    fun _ => digestPort_of_undefined, fun _ _ _ h => if_neg h, fun _ _ _ _ h => if_neg h⟩

/-- Settles O30: under the invariant each command finds every register and byte it reads. -/
theorem noFaultFromTheInvariant : Obligations.NoFaultFromTheInvariant := fun _ _ => step_ne_fault

/-- Settles O38: `BLK` and `PADDED` are read off the next state of each command. -/
theorem blockIndexAndPaddedFlagWriters : Obligations.BlockIndexAndPaddedFlagWriters := by
  intro s t i h
  cases i with
  | reset => obtain rfl := execReset_eq_next.1 h; simp
  | append imm8 => obtain ⟨-, rfl⟩ := execAppend_eq_next.1 h; simp
  | init => obtain ⟨-, rfl⟩ := execInit_eq_next.1 h; simp
  | pad => obtain ⟨-, rfl⟩ := execPad_eq_next.1 h; simp
  | expand => obtain ⟨-, w, -, rfl⟩ := execExpand_eq_next.1 h; simp
  | compress => obtain ⟨-, x, w, -, -, rfl⟩ := execCompress_eq_next.1 h; simp
  | finalize => obtain ⟨-, x, -, rfl⟩ := execFinalize_eq_next.1 h; simp
  | hash => obtain ⟨x, v, w, rfl⟩ := execHash_frame h; simp

/-- Settles O29: the reset state is a cleared state. -/
theorem resetMeetsTheInvariant : Obligations.ResetMeetsTheInvariant := clear_inv State.reset

end Sys2Proof.Machine

/-! The proofs of the memory family: MemRead and MemWrite (R53, R54), the digest on its bus (R56), the blocks of a
padded message and the length field in its last words (R52, R55), and what each command does to the buffer (R60). -/

namespace Sys2Proof.Machine

/-! ## Big-endian fields of a number -/

/-- Cutting a field out of a number that is written in enough bits. -/
theorem extractLsb'_ofNat_of_le {w i n : Nat} (v : Nat) (h : i + n ≤ w) :
    (BitVec.ofNat w v).extractLsb' i n = BitVec.ofNat n (v >>> i) := by
  refine BitVec.eq_of_getLsbD_eq fun j hj => ?_
  rw [BitVec.getLsbD_extractLsb', BitVec.getLsbD_ofNat, BitVec.getLsbD_ofNat, Nat.testBit_shiftRight]
  simp [show i + j < w by omega]

/-- Four neighbouring bytes of a bit vector, grouped (R108), are the 32 bits they were cut from. -/
theorem be32_extractLsb' {w : Nat} (v : BitVec w) (i : Nat) :
    be32 (v.extractLsb' (i + 24) 8) (v.extractLsb' (i + 16) 8) (v.extractLsb' (i + 8) 8) (v.extractLsb' i 8) =
      v.extractLsb' i 32 := by
  refine BitVec.eq_of_toNat_eq ?_
  simp only [be32, BitVec.toNat_ofNat, BitVec.extractLsb'_toNat, Nat.shiftRight_add]
  generalize v.toNat >>> i = x
  simp only [Nat.shiftRight_eq_div_pow]
  omega

/-- The number that bytes stand for, the first the most significant, as `digestBus` takes it. -/
def beNumber (bs : List Byte) : Nat := bs.foldl (fun acc b => acc * 256 + b.toNat) 0

theorem beNumber_concat (bs : List Byte) (b : Byte) : beNumber (bs ++ [b]) = beNumber bs * 256 + b.toNat := by
  simp [beNumber]

/-- Byte `k` of `n` is found `8 * (n - 1 - k)` bits up. -/
theorem byte_of_beNumber (bs : List Byte) (k : Nat) (h : k < bs.length) :
    BitVec.ofNat 8 (beNumber bs >>> (8 * (bs.length - 1 - k))) = bs[k] := by
  induction bs using List.reverseRecOn with
  | nil => exact absurd h (Nat.not_lt_zero k)
  | append_singleton bs b ih =>
    rw [beNumber_concat]
    by_cases hk : k < bs.length
    · have hshift : 8 * ((bs ++ [b]).length - 1 - k) = 8 + 8 * (bs.length - 1 - k) := by simp; omega
      have hdrop : (beNumber bs * 256 + b.toNat) >>> 8 = beNumber bs := by
        have := b.isLt
        rw [Nat.shiftRight_eq_div_pow]
        omega
      rw [hshift, Nat.shiftRight_add, hdrop, ih hk, List.getElem_append_left hk]
    · obtain rfl : k = bs.length := by simp at h; omega
      refine BitVec.eq_of_toNat_eq ?_
      simpa using b.isLt

/-! ## The digest port (R56) -/

theorem digestBus_eq (d : Digest) : digestBus d = BitVec.ofNat 256 (beNumber d.toList) := rfl

theorem digestBus_byte (d : Digest) (k : Nat) (h : k < 32) :
    (digestBus d).extractLsb' (248 - 8 * k) 8 = d[k] := by
  have hbyte := byte_of_beNumber d.toList k (by simpa using h)
  simp only [Vector.length_toList, Vector.getElem_toList, show 8 * (32 - 1 - k) = 248 - 8 * k by omega] at hbyte
  rw [digestBus_eq, extractLsb'_ofNat_of_le _ (by omega), hbyte]

theorem digestPort_of_not_finalized {s : State} (hp : s.PHASE ≠ .Finalized) :
    digestPort s = .refused .digestNotValid := by
  rw [digestPort, if_neg (mt DVALID_iff.1 hp)]

theorem hostRead_of_not_finalized {s : State} (hp : s.PHASE ≠ .Finalized) :
    hostRead s = .refused .digestNotValid := by
  rw [hostRead, digestPort_of_not_finalized hp, andThen_refused]

/-! ## MemRead of one byte (R53) -/

theorem memRead_byte {s : State} {addr : Nat} {b : Byte} (h : addr + 1 ≤ s.LEN) (hb : s.MSG.read addr = some b) :
    memRead s addr 1 = .next b.toNat := by
  rw [memRead, if_pos ⟨.inl rfl, h⟩, readBigEndian_cons hb, readBigEndian_zero, Nat.zero_mul, Nat.zero_add]

/-! ## What a run of writes at `LEN` leaves readable (R54, R60) -/

section writes
variable (m : Memory) (a : Nat) (bs : List Byte)

theorem read_writeBytes_inside {k : Nat} (h : k < bs.length) : (m.writeBytes a bs).read (a + k) = bs[k]? := by
  rw [read_writeBytes, if_pos (by omega), Nat.add_sub_cancel_left]

theorem read_writeBytes_outside {x : Nat} (h : x < a ∨ a + bs.length ≤ x) :
    (m.writeBytes a bs).read x = m.read x := by
  rw [read_writeBytes, if_neg (by omega)]

end writes

/-! ## What a command does to the buffer (R60) -/

/-- `t` has the buffer of `s` with `bs` appended at `LEN`. -/
def State.Appended (s t : State) (bs : List Byte) : Prop :=
  t.MSG = s.MSG.writeBytes s.LEN bs ∧ t.LEN = s.LEN + bs.length

section buffer
variable {s t : State} {i : Instr}

theorem State.appended_nil_iff : s.Appended t [] ↔ t.MSG = s.MSG ∧ t.LEN = s.LEN := Iff.rfl

/-- The bytes held before an append stay readable where they were. -/
theorem State.Appended.keeps_bytes {bs : List Byte} (h : s.Appended t bs) :
    s.LEN ≤ t.LEN ∧ ∀ a, a < s.LEN → t.MSG.read a = s.MSG.read a := by
  obtain ⟨hmsg, hlen⟩ := h
  refine ⟨by omega, fun a ha => ?_⟩
  rw [hmsg, read_writeBytes_outside _ _ _ (.inl ha)]

/-- Under the invariant nothing is padded in `Created`, where APPEND and HASH run. -/
theorem not_padded_of_created (h : s.Inv) (hp : s.PHASE = .Created) : s.PADDED ≠ true := by
  obtain ⟨-, -, ⟨hpad, -⟩, -⟩ := (inv_iff_of_created hp).1 h
  simp [hpad]

/-- Every command but RESET appends to the buffer, and nothing to one that is padded: APPEND its byte, PAD and HASH the
padding, the others nothing. -/
theorem exec_appends (hi : i ≠ .reset) (h : exec i s = .next t) :
    ∃ bs, s.Appended t bs ∧ (s.Inv → s.PADDED = true → bs = []) := by
  cases i with
  | reset => exact absurd rfl hi
  | append imm8 =>
    obtain ⟨⟨hp, -⟩, rfl⟩ := execAppend_eq_next.1 h
    exact ⟨[imm8], ⟨rfl, rfl⟩, fun hinv hpad => absurd hpad (not_padded_of_created hinv hp)⟩
  | init => obtain ⟨-, rfl⟩ := execInit_eq_next.1 h; exact ⟨[], ⟨rfl, rfl⟩, fun _ _ => rfl⟩
  | pad =>
    obtain ⟨⟨-, hpad, -⟩, rfl⟩ := execPad_eq_next.1 h
    exact ⟨padTail s.LEN, ⟨rfl, rfl⟩, fun _ hpad' => absurd (hpad.symm.trans hpad') (by decide)⟩
  | expand => obtain ⟨-, w, -, rfl⟩ := execExpand_eq_next.1 h; exact ⟨[], ⟨rfl, rfl⟩, fun _ _ => rfl⟩
  | compress => obtain ⟨-, x, w, -, -, rfl⟩ := execCompress_eq_next.1 h; exact ⟨[], ⟨rfl, rfl⟩, fun _ _ => rfl⟩
  | finalize => obtain ⟨-, x, -, rfl⟩ := execFinalize_eq_next.1 h; exact ⟨[], ⟨rfl, rfl⟩, fun _ _ => rfl⟩
  | hash =>
    have hp : s.PHASE = .Created := (execHash_eq_next.1 h).1
    obtain ⟨x, v, w, rfl⟩ := execHash_frame h
    exact ⟨padTail s.LEN, ⟨rfl, rfl⟩, fun hinv hpad => absurd hpad (not_padded_of_created hinv hp)⟩

end buffer

/-! ## Blocks, and the length field in the last of them (R52, R55) -/

/-- Block `j` of the first `n` is the slice of 64 bytes from `64 * j`. -/
theorem splitBlocks_getElem? {p : List Byte} {n j : Nat} (hp : 64 * n ≤ p.length) (hj : j < n) :
    ∃ B : Vector Byte 64, (splitBlocks n p)[j]? = some B ∧ ∀ (k : Nat) (h : k < 64), p[64 * j + k]? = some B[k] := by
  induction n with
  | zero => exact absurd hj (Nat.not_lt_zero j)
  | succ n ih =>
    have hcount : (splitBlocks n p).length = n := splitBlocks_length n p (by omega)
    obtain ⟨B, hsplit, hB⟩ := splitBlocks_succ n p (by omega)
    rw [hsplit]
    by_cases hjn : j < n
    · obtain ⟨C, hget, hC⟩ := ih (by omega) hjn
      exact ⟨C, by rw [List.getElem?_append_left (hcount.symm ▸ hjn), hget], hC⟩
    · obtain rfl : j = n := by omega
      exact ⟨B, by rw [List.getElem?_append_right hcount.le, hcount, Nat.sub_self]; rfl, hB⟩

theorem bytesBe64_getElem? (v : BitVec 64) (c : Nat) (hc : c < 8) :
    (bytesBe64 v)[c]? = some (v.extractLsb' (56 - 8 * c) 8) := by
  interval_cases c <;> rfl

/-- The last eight bytes of the last block are the length field of `pad` (R140). -/
theorem last_block_length_byte {m : List Byte} {B : Vector Byte 64}
    (h : (splitBlocks (blockCount m.length) (pad m)).getLast? = some B) (c : Nat) (hc : c < 8) :
    B[56 + c] = (BitVec.ofNat 64 (8 * m.length)).extractLsb' (56 - 8 * c) 8 := by
  have hblocks : 64 * blockCount m.length = m.length + 9 + zeroCount m.length := blockCount_eq m.length
  have hcount : blockCount m.length = (m.length + 8) / 64 + 1 := rfl
  obtain ⟨C, hsplit, hC⟩ := splitBlocks_succ ((m.length + 8) / 64) (pad m) (by rw [pad_length]; omega)
  rw [hcount, hsplit, List.getLast?_concat] at h
  obtain rfl := Option.some.inj h
  have hfront : (m ++ [0x80#8] ++ List.replicate (zeroCount m.length) 0x00#8).length =
      64 * ((m.length + 8) / 64) + 56 := by
    simp
    omega
  refine Option.some.inj ((hC (56 + c) (by omega)).symm.trans ?_)
  rw [pad, List.getElem?_append_right (by omega), hfront, ← bytesBe64_getElem? _ c hc]
  congr 1
  omega

/-- The words of a schedule that come straight from the block (R162). -/
theorem expand_getElem (B : Vector Byte 64) (i : Nat) (h : i < 16) :
    (expand B)[i] = be32 B[4 * i] B[4 * i + 1] B[4 * i + 2] B[4 * i + 3] := by
  rw [← groupWords_getElem B 16 (Nat.le_refl 16) i h]
  exact schedule_getElem_lt _ 48 i h

/-- The last two words of the last block are the halves of the length field. -/
theorem last_words_of_last_block {m : List Byte} {B : Vector Byte 64}
    (h : (splitBlocks (blockCount m.length) (pad m)).getLast? = some B) :
    (expand B)[14] = (BitVec.ofNat 64 (8 * m.length)).extractLsb' 32 32 ∧
    (expand B)[15] = (BitVec.ofNat 64 (8 * m.length)).extractLsb' 0 32 := by
  have hbyte := last_block_length_byte h
  constructor
  · rw [expand_getElem B 14 (by decide), hbyte 0 (by decide), hbyte 1 (by decide), hbyte 2 (by decide),
      hbyte 3 (by decide)]
    exact be32_extractLsb' _ 32
  · rw [expand_getElem B 15 (by decide), hbyte 4 (by decide), hbyte 5 (by decide), hbyte 6 (by decide),
      hbyte 7 (by decide)]
    exact be32_extractLsb' _ 0

/-! ## The obligations -/

/-- Settles O35: a command but RESET appends, and to a padded buffer it appends nothing. -/
theorem messageIsAppendOnlyThenFrozen : Obligations.MessageIsAppendOnlyThenFrozen := by
  intro s t i h
  refine ⟨fun hi => ?_, fun hi => ?_, fun hi hinv hpad => ?_⟩
  · subst hi
    obtain rfl := execReset_eq_next.1 h
    exact ⟨clear_MSG s, clear_LEN s⟩
  · obtain ⟨bs, happ, -⟩ := exec_appends hi h
    exact happ.keeps_bytes
  · obtain ⟨bs, happ, hnone⟩ := exec_appends hi h
    exact State.appended_nil_iff.1 (hnone hinv hpad ▸ happ)

/-- Settles O41, by the read of a run of writes, inside it and outside it. -/
theorem memWriteAppendsBigEndian : Obligations.MemWriteAppendsBigEndian := by
  intro s n v hn hv
  refine ⟨_, memWrite_of_domain hn hv, rfl, fun k hk => ?_, fun a ha => ?_⟩
  · exact (read_writeBytes_inside _ _ _ (by simpa using hk)).trans (beBytes_getElem? n v k hk)
  · exact read_writeBytes_outside _ _ _ (by simpa using ha)

/-- Settles O42: byte `k` of a big-endian number of 32 bytes stands 248 - 8k bits up; the port answers by `PHASE`. -/
theorem digestPortFollowsR56 : Obligations.DigestPortFollowsR56 :=
  ⟨fun _ => ⟨rfl, rfl⟩, digestBus_byte,
    fun _ _ hp hd => ⟨digestPort_of_finalized hp hd, _, hostRead_of_finalized hp hd, rfl⟩,
    fun _ hp => ⟨digestPort_of_not_finalized hp, hostRead_of_not_finalized hp⟩⟩

/-- Settles O46, by induction on the number of blocks. -/
theorem blocksAreSlicesInOrder : Obligations.BlocksAreSlicesInOrder :=
  fun p n hp => ⟨splitBlocks_length n p hp, fun _ => splitBlocks_getElem? hp⟩

/-- Settles O48: the last two words are the halves of `8 * L` in 64 bits, which a length below `2^61` does not
overflow (R143). -/
theorem lastBlockCarriesTheLength : Obligations.LastBlockCarriesTheLength := by
  intro m B hm h
  obtain ⟨h14, h15⟩ := last_words_of_last_block h
  rw [h14, h15, BitVec.extractLsb'_toNat, BitVec.extractLsb'_toNat, BitVec.toNat_ofNat,
    Nat.shiftRight_eq_div_pow, Nat.shiftRight_eq_div_pow]
  omega

/-- Settles O40: the digits of MemRead's number, one byte and four. -/
theorem memReadIsBigEndian : Obligations.MemReadIsBigEndian := by
  refine ⟨fun s addr b => memRead_byte, fun s addr b0 b1 b2 b3 h h0 h1 h2 h3 => ?_⟩
  refine (memRead_word h h0 h1 h2 h3).trans (congrArg Host.Outcome.next ?_)
  omega

end Sys2Proof.Machine

/-! The proofs of the encoding family: the two fields of a command word (R82), the decoder in terms of them (R84, R85),
and the host's assembler lines and pseudo-instructions (R87, R88). -/

namespace Sys2Proof.Machine

/-! ## The two fields of a command word (R82) -/

@[simp] theorem opField_append (op : BitVec 4) (imm8 : Byte) : opField (op ++ imm8) = op :=
  BitVec.extractLsb'_append_eq_left

@[simp] theorem immField_append (op : BitVec 4) (imm8 : Byte) : immField (op ++ imm8) = imm8 :=
  BitVec.extractLsb'_append_eq_right

@[simp] theorem opField_append_immField (w : CmdWord) : opField w ++ immField w = w :=
  BitVec.extractLsb'_append_extractLsb'

/-- A command word is its two fields. -/
theorem eq_iff_fields {w w' : CmdWord} : w = w' ↔ opField w = opField w' ∧ immField w = immField w' := by
  constructor
  · rintro rfl
    exact ⟨rfl, rfl⟩
  · rintro ⟨hop, himm⟩
    rw [← opField_append_immField w, hop, himm, opField_append_immField]

theorem eq_encode_iff {w : CmdWord} {i : Instr} :
    w = encode i ↔ opField w = opcode i ∧ immField w = operandByte i := by
  rw [eq_iff_fields, encode, opField_append, immField_append]

theorem toNat_encode (i : Instr) : (encode i).toNat = 256 * (opcode i).toNat + (operandByte i).toNat := by
  rw [encode, BitVec.toNat_append, ← Nat.shiftLeft_add_eq_or_of_lt (operandByte i).isLt, Nat.shiftLeft_eq,
    Nat.mul_comm]

/-! ## The opcodes of the commands (R84) -/

/-- The opcodes of no command (R85). -/
def freeOpcodes : List (BitVec 4) := [0x0#4, 0x9#4, 0xA#4, 0xB#4, 0xC#4, 0xD#4, 0xE#4, 0xF#4]

/-- The opcodes of format Z (R82, R84). -/
def formatZOpcodes : List (BitVec 4) := [0x1#4, 0x3#4, 0x4#4, 0x5#4, 0x6#4, 0x7#4, 0x8#4]

theorem opcode_classes : ∀ op : BitVec 4, op ∈ freeOpcodes ∨ op ∈ formatZOpcodes ∨ op = 0x2#4 := by decide

theorem opcode_not_free (i : Instr) : opcode i ∉ freeOpcodes := by
  cases i <;> simp [opcode, freeOpcodes]

theorem opcode_mem_formatZ_iff {i : Instr} : opcode i ∈ formatZOpcodes ↔ i.mnemonic ≠ .APPEND := by
  cases i <;> simp [opcode, formatZOpcodes, Instr.mnemonic]

/-- An opcode is that of one mnemonic. -/
theorem opcode_eq_iff {i j : Instr} : opcode i = opcode j ↔ i.mnemonic = j.mnemonic := by
  cases i <;> cases j <;> simp [opcode, Instr.mnemonic]

theorem operandByte_of_not_append {i : Instr} (h : i.mnemonic ≠ .APPEND) : operandByte i = 0 := by
  cases i <;> simp [Instr.mnemonic, operandByte] at h ⊢

/-- A command is its name and its operand (R80). -/
theorem eq_iff_mnemonic_operandByte {i j : Instr} :
    i = j ↔ i.mnemonic = j.mnemonic ∧ operandByte i = operandByte j := by
  cases i <;> cases j <;> simp [Instr.mnemonic, operandByte]

/-! ## The decoder in terms of the fields -/

theorem formatZ_eq_ok {op : BitVec 4} {imm8 : Byte} {i j : Instr} :
    formatZ op imm8 i = .ok j ↔ imm8 = 0 ∧ i = j := by
  unfold formatZ
  split
  · next h => simp [h]
  · next h => exact iff_of_false nofun fun hj => h hj.1

theorem formatZ_eq_reserved {op : BitVec 4} {imm8 : Byte} {i : Instr} :
    (∃ why, formatZ op imm8 i = .reserved why) ↔ imm8 ≠ 0 := by
  unfold formatZ
  split
  · next h => simp [h]
  · next h => exact iff_of_true ⟨_, rfl⟩ h

/-- All that the decoder can do with a word: its opcode is free, or that of a command of format Z, or APPEND's. -/
theorem decode_cases (w : CmdWord) :
    (opField w ∈ freeOpcodes ∧ decode w = .reserved (.opcode (opField w))) ∨
    (∃ i : Instr, i.mnemonic ≠ .APPEND ∧ opField w = opcode i ∧ decode w = formatZ (opcode i) (immField w) i) ∨
    (opField w = 0x2#4 ∧ decode w = .ok (.append (immField w))) := by
  unfold decode
  split
  case h_1 h => exact .inr (.inl ⟨.reset, by decide, h, rfl⟩)
  case h_2 h => exact .inr (.inr ⟨h, rfl⟩)
  case h_3 h => exact .inr (.inl ⟨.init, by decide, h, rfl⟩)
  case h_4 h => exact .inr (.inl ⟨.pad, by decide, h, rfl⟩)
  case h_5 h => exact .inr (.inl ⟨.expand, by decide, h, rfl⟩)
  case h_6 h => exact .inr (.inl ⟨.compress, by decide, h, rfl⟩)
  case h_7 h => exact .inr (.inl ⟨.finalize, by decide, h, rfl⟩)
  case h_8 h => exact .inr (.inl ⟨.hash, by decide, h, rfl⟩)
  case h_9 h1 h2 h3 h4 h5 h6 h7 h8 =>
    refine .inl ⟨?_, rfl⟩
    have hother : opField w ∉ formatZOpcodes := by
      simp only [formatZOpcodes, List.mem_cons, List.not_mem_nil, or_false, not_or]
      exact ⟨h1, h3, h4, h5, h6, h7, h8⟩
    exact (opcode_classes (opField w)).resolve_right (not_or.2 ⟨hother, h2⟩)

/-- R82: the decoder reads the two fields of the command it answers. -/
theorem decode_eq_ok_iff {w : CmdWord} {i : Instr} :
    decode w = .ok i ↔ opField w = opcode i ∧ immField w = operandByte i := by
  rcases decode_cases w with ⟨hop, hw⟩ | ⟨j, hj, hop, hw⟩ | ⟨hop, hw⟩
  · have hi : opField w ≠ opcode i := fun h => opcode_not_free i (h ▸ hop)
    simp [hw, hi]
  · rw [hw, hop, formatZ_eq_ok, opcode_eq_iff, eq_iff_mnemonic_operandByte, operandByte_of_not_append hj]
    constructor
    · rintro ⟨himm, hname, hi⟩
      exact ⟨hname, himm.trans hi⟩
    · rintro ⟨hname, himm⟩
      have hi := operandByte_of_not_append (hname ▸ hj)
      exact ⟨himm.trans hi, hname, hi.symm⟩
  · rw [hw, hop, Decoded.ok.injEq, eq_iff_mnemonic_operandByte]
    exact and_congr_left' (opcode_eq_iff (i := .append (immField w))).symm

/-- R85: which words are reserved. -/
theorem decode_reserved_iff {w : CmdWord} : (∃ why, decode w = .reserved why) ↔
    opField w ∈ freeOpcodes ∨ opField w ∈ formatZOpcodes ∧ immField w ≠ 0 := by
  rcases decode_cases w with ⟨hop, hw⟩ | ⟨j, hj, hop, hw⟩ | ⟨hop, hw⟩
  · simp [hw, hop]
  · rw [hw, hop, formatZ_eq_reserved, opcode_mem_formatZ_iff]
    simp [hj, opcode_not_free]
  · simp [hw, hop, freeOpcodes, formatZOpcodes]

theorem step_of_reserved {s : State} {w : CmdWord} {why : ReservedWord} {rest : List HostInput}
    (h : s.port = .command w :: rest) (hw : decode w = .reserved why) : step s = .refused .reservedEncoding := by
  simp [step, h, hw]

/-! ## The rows of the opcode map (R84) -/

/-- A row has its opcode in full, and a zero operand that only APPEND's row leaves unmasked. -/
theorem opcodeTable_fields : ∀ r ∈ opcodeTable,
    opField r.mask = BitVec.allOnes 4 ∧ immField r.pattern = 0 ∧
    immField r.mask = if r.mnemonic = .APPEND then 0 else BitVec.allOnes 8 := by decide

/-- No two rows have the same opcode. -/
theorem opcodeTable_pattern_injective : ∀ r ∈ opcodeTable, ∀ r' ∈ opcodeTable,
    opField r.pattern = opField r'.pattern → r = r' := by decide

/-- Each command has a row, and its rows have its opcode. -/
theorem opcodeTable_row_of_instr (i : Instr) :
    (∃ r ∈ opcodeTable, r.mnemonic = i.mnemonic) ∧
    ∀ r ∈ opcodeTable, r.mnemonic = i.mnemonic → opField r.pattern = opcode i := by
  cases i <;> exact ⟨by simp [opcodeTable, Instr.mnemonic], by simp only [Instr.mnemonic, opcode]; decide⟩

/-- What `w and mask = match` says of the two fields. -/
theorem covers_iff {r : OpcodeRow} (hr : r ∈ opcodeTable) {w : CmdWord} :
    r.covers w = true ↔ opField w = opField r.pattern ∧ (r.mnemonic ≠ .APPEND → immField w = 0) := by
  obtain ⟨hop, himm, hmask⟩ := opcodeTable_fields r hr
  have hopAnd : opField (w &&& r.mask) = opField w := by
    rw [opField, BitVec.extractLsb'_and, ← opField, ← opField, hop, BitVec.and_allOnes]
  have himmAnd : immField (w &&& r.mask) = immField w &&& immField r.mask := BitVec.extractLsb'_and
  rw [OpcodeRow.covers, beq_iff_eq, eq_iff_fields, hopAnd, himmAnd, himm, hmask]
  by_cases h : r.mnemonic = .APPEND
  · simp [h]
  · rw [if_neg h, BitVec.and_allOnes, forall_prop_of_true h]

theorem row_of_instr_covers_iff {w : CmdWord} {i : Instr} :
    (∃ r ∈ opcodeTable, r.covers w = true ∧ r.mnemonic = i.mnemonic) ↔
      opField w = opcode i ∧ (i.mnemonic ≠ .APPEND → immField w = 0) := by
  obtain ⟨⟨row, hrow, hname⟩, hpattern⟩ := opcodeTable_row_of_instr i
  constructor
  · rintro ⟨r, hr, hcovers, hi⟩
    rwa [covers_iff hr, hpattern r hr hi, hi] at hcovers
  · intro h
    refine ⟨row, hrow, (covers_iff hrow).2 ?_, hname⟩
    rwa [hpattern row hrow hname, hname]

/-! ## How many words are commands (R85) -/

/-- The words of the commands as numbers: APPEND's 256 and the 7 of format Z. -/
def commandNumbers : Finset Nat := Finset.Ico 0x200 0x300 ∪ {0x100, 0x300, 0x400, 0x500, 0x600, 0x700, 0x800}

/-- The numbers of commands are those of their encodings. -/
theorem mem_commandNumbers_iff {n : Nat} : n ∈ commandNumbers ↔ ∃ i, (encode i).toNat = n := by
  simp only [commandNumbers, Finset.mem_union, Finset.mem_Ico, Finset.mem_insert, Finset.mem_singleton]
  constructor
  · intro h
    rcases h with h | rfl | rfl | rfl | rfl | rfl | rfl | rfl
    · refine ⟨.append (BitVec.ofNat 8 (n - 0x200)), ?_⟩
      rw [toNat_encode, operandByte, BitVec.toNat_ofNat, Nat.mod_eq_of_lt (by omega)]
      simp [opcode]
      omega
    · exact ⟨.reset, rfl⟩
    · exact ⟨.init, rfl⟩
    · exact ⟨.pad, rfl⟩
    · exact ⟨.expand, rfl⟩
    · exact ⟨.compress, rfl⟩
    · exact ⟨.finalize, rfl⟩
    · exact ⟨.hash, rfl⟩
  · rintro ⟨i, rfl⟩
    rw [toNat_encode]
    cases i with
    | append imm8 =>
      have := imm8.isLt
      exact .inl (by simp only [opcode, operandByte, BitVec.reduceToNat]; omega)
    | _ => exact .inr (by decide)

theorem decode_ofNat_ok_iff {n : Nat} (hn : n < 4096) :
    (∃ i, decode (BitVec.ofNat 12 n) = .ok i) ↔ n ∈ commandNumbers := by
  rw [mem_commandNumbers_iff]
  refine exists_congr fun i => ?_
  rw [decode_eq_ok_iff, ← eq_encode_iff, ← BitVec.toNat_inj, BitVec.toNat_ofNat, Nat.mod_eq_of_lt hn, eq_comm]

theorem commandNumbers_card : commandNumbers.card = 263 := by
  rw [commandNumbers, Finset.card_union_of_disjoint (by simp), Nat.card_Ico]
  decide

theorem commandNumbers_subset : commandNumbers ⊆ Finset.range 4096 := by
  intro n hn
  obtain ⟨i, rfl⟩ := mem_commandNumbers_iff.1 hn
  exact Finset.mem_range.2 (encode i).isLt

/-! ## The host's side (R87, R88) -/

theorem loads_wellFormed_iff {text : List Nat} :
    (Pseudo.loads text).wellFormed = true ↔ ∀ c ∈ text, 0x20 ≤ c ∧ c ≤ 0x7E := by
  simp [Pseudo.wellFormed]

theorem sourceLine_wellFormed_iff {l : SourceLine} : l.wellFormed = true ↔
    (l.mnemonic = .APPEND ∧ ∃ n, l.operand = some n ∧ n ≤ 255) ∨ (l.mnemonic ≠ .APPEND ∧ l.operand = none) := by
  obtain ⟨m, operand⟩ := l
  cases m <;> cases operand <;> simp [SourceLine.wellFormed]

theorem assemble_append {n : Nat} (hn : n ≤ 255) : assemble ⟨.APPEND, some n⟩ = some (.append (BitVec.ofNat 8 n)) := by
  simp [assemble, SourceLine.wellFormed, hn]

theorem assemble_without_operand {m : Mnemonic} (hm : m ≠ .APPEND) {i : Instr} :
    assemble ⟨m, none⟩ = some i ↔ m = i.mnemonic := by
  cases m <;> cases i <;> simp [assemble, SourceLine.wellFormed, Instr.mnemonic] at hm ⊢

theorem assemble_of_not_wellFormed {l : SourceLine} (h : ¬ l.wellFormed = true) : assemble l = none := by
  rw [assemble, if_neg h]

/-! ## The obligations -/

/-- Settles O1: both sides say what stands in the two fields of the word. -/
theorem decodeInvertsEncode : Obligations.DecodeInvertsEncode :=
  fun _ _ _ => decode_eq_ok_iff.trans eq_encode_iff.symm

/-- Settles O2: decoder and rows say the same of the two fields, and two rows over one word have the same opcode. -/
theorem decoderFollowsTheOpcodeMap : Obligations.DecoderFollowsTheOpcodeMap := by
  refine ⟨fun w i => ?_, fun w r hr r' hr' h h' => ?_⟩
  · rw [decode_eq_ok_iff, row_of_instr_covers_iff]
    by_cases hi : i.mnemonic = .APPEND
    · simp [hi, eq_comm]
    · simp [hi, operandByte_of_not_append hi]
  · obtain ⟨hop, -⟩ := (covers_iff hr).1 h
    obtain ⟨hop', -⟩ := (covers_iff hr').1 h'
    exact opcodeTable_pattern_injective r hr r' hr' (hop.symm.trans hop')

/-- Settles O3: the reserved words are the 4096 words less the numbers of the 263 commands. -/
theorem reservedWordsAreRefused : Obligations.ReservedWordsAreRefused := by
  refine ⟨fun w => decode_reserved_iff, ?_, fun s w why rest => step_of_reserved⟩
  have hcard : (Finset.range 4096 \ commandNumbers).card = 3833 := by
    rw [Finset.card_sdiff_of_subset commandNumbers_subset, commandNumbers_card, Finset.card_range]
  rw [← hcard, ← List.toFinset_card_of_nodup (List.nodup_range.filter _)]
  refine congrArg Finset.card (Finset.ext fun n => ?_)
  simp only [List.mem_toFinset, List.mem_filter, List.mem_range, Finset.mem_sdiff, Finset.mem_range]
  refine and_congr_right fun hn => ?_
  rw [← decode_ofNat_ok_iff hn]
  cases decode (BitVec.ofNat 12 n) <;> simp

/-- Settles O58: every pseudo-instruction but LOADS is well-formed, and LOADS by the range of its characters. -/
theorem pseudoInstructionsExpand : Obligations.PseudoInstructionsExpand := by
  refine ⟨fun bs => rfl, fun text h => ?_, fun text ⟨c, hc, hout⟩ => ?_, fun bs => rfl, rfl⟩
  · rw [expansion, if_pos (loads_wellFormed_iff.2 h)]
  · rw [expansion, if_neg fun h => ?_]
    have := loads_wellFormed_iff.1 h c hc
    omega

/-- Settles O59: by the form of the line, APPEND with a number, another command without one, or neither. -/
theorem sourceLinesAssemble : Obligations.SourceLinesAssemble := by
  intro l i
  by_cases hl : l.wellFormed = true
  · obtain ⟨m, operand⟩ := l
    rcases sourceLine_wellFormed_iff.1 hl with ⟨rfl, n, rfl, hn⟩ | ⟨hm, rfl⟩
    · have hbyte : BitVec.ofNat 8 n = operandByte i ↔ (operandByte i).toNat = n := by
        rw [← BitVec.toNat_inj, BitVec.toNat_ofNat, Nat.mod_eq_of_lt (by omega), eq_comm]
      rw [assemble_append hn, Option.some_inj, eq_iff_mnemonic_operandByte]
      change Mnemonic.APPEND = i.mnemonic ∧ BitVec.ofNat 8 n = operandByte i ↔ _
      rw [hbyte]
      simp only [Option.some_inj, exists_eq_left', hn, true_and, ne_eq, not_true, false_and, or_false]
    · rw [assemble_without_operand hm]
      simp [hm]
  · rw [assemble_of_not_wellFormed hl]
    rw [sourceLine_wellFormed_iff] at hl
    refine iff_of_false nofun ?_
    rintro ⟨-, ⟨happend, n, hop, hn, -⟩ | hother⟩
    · exact hl (.inl ⟨happend, n, hop, hn⟩)
    · exact hl (.inr hother)

end Sys2Proof.Machine

/-! The proofs of the primitives family: the word operations as integers (R101, R103, R104), the bits of a rotation
(R105, R106), and the grouping of bytes into a word (R108). -/

namespace Sys2Proof.Machine

/-! ## The word operations as integers (R103, R104) -/

/-- R103: "the complement within 32 bits". -/
theorem not32_eq_not (x : Word) : not32 x = ~~~x := BitVec.xor_allOnes

theorem toNat_not32 (x : Word) : (not32 x).toNat = 2 ^ 32 - 1 - x.toNat := by
  rw [not32_eq_not, BitVec.toNat_not]

theorem toNat_shr (x : Word) (n : Nat) : (shr x n).toNat = x.toNat / 2 ^ n := by
  rw [shr, BitVec.toNat_ushiftRight, Nat.shiftRight_eq_div_pow]

/-- The logical shift moves every bit down, zeros enter at the top. -/
theorem getLsbD_shr (x : Word) (n j : Nat) : (shr x n).getLsbD j = x.getLsbD (n + j) := BitVec.getLsbD_ushiftRight x n j

/-! ## Rotation (R105) -/

section rotation
variable (x : Word) (n : Int)

/-- The second summand of `rotr`, the bits shifted out at the bottom, is a left shift. -/
theorem ofNat_toNat_mul_two_pow (k : Nat) : BitVec.ofNat 32 (x.toNat * 2 ^ k) = x <<< k := by
  refine BitVec.eq_of_toNat_eq ?_
  rw [BitVec.toNat_ofNat, BitVec.toNat_shiftLeft, Nat.shiftLeft_eq]

/-- The two parts of a rotated word have no bit in common, so their sum carries nothing. -/
theorem shr_add_shiftLeft {m : Nat} (hm : m ≤ 32) : shr x m + x <<< (32 - m) = shr x m ||| x <<< (32 - m) := by
  refine BitVec.add_eq_or_of_and_eq_zero _ _ (BitVec.eq_of_getLsbD_eq fun j hj => ?_)
  rw [BitVec.getLsbD_and, getLsbD_shr, BitVec.getLsbD_shiftLeft, BitVec.getLsbD_zero]
  by_cases hlow : j < 32 - m
  · simp [hlow]
  · simp [BitVec.getLsbD_of_ge x (m + j) (by omega)]

theorem rotr_eq_rotateRight : rotr x n = x.rotateRight (n % 32).toNat := by
  have hm : (n % 32).toNat < 32 := by omega
  rw [rotr, BitVec.rotateRight_def, Nat.mod_eq_of_lt hm]
  split
  case isTrue hzero => simp [hzero]
  case isFalse => rw [ofNat_toNat_mul_two_pow, shr_add_shiftLeft x hm.le, shr]

/-- R105: "Bit `j` of the result is bit `(j + m) mod 32` of `x`". -/
theorem getLsbD_rotr {j : Nat} (hj : j < 32) : (rotr x n).getLsbD j = x.getLsbD ((j + (n % 32).toNat) % 32) := by
  have hm : (n % 32).toNat < 32 := by omega
  rw [rotr_eq_rotateRight, BitVec.getLsbD_rotateRight, Nat.mod_eq_of_lt hm]
  by_cases hlow : j < 32 - (n % 32).toNat
  · rw [decide_eq_true hlow, cond_true, Nat.add_comm, Nat.mod_eq_of_lt (by omega)]
  · rw [decide_eq_false hlow, cond_false, decide_eq_true hj, Bool.true_and]
    congr 1
    omega

end rotation

@[simp] theorem rotr_zero (x : Word) : rotr x 0 = x := rfl

/-- Only the floor remainder of the amount counts. -/
theorem rotr_congr (x : Word) {n k : Int} (h : n % 32 = k % 32) : rotr x n = rotr x k := by
  rw [rotr_eq_rotateRight, rotr_eq_rotateRight, h]

/-- A word whose bits are all the same is fixed by every rotation. -/
theorem rotr_of_constant_bits {x : Word} {b : Bool} (hx : ∀ j < 32, x.getLsbD j = b) (n : Int) : rotr x n = x := by
  refine BitVec.eq_of_getLsbD_eq fun j hj => ?_
  rw [getLsbD_rotr x n hj, hx j hj, hx _ (Nat.mod_lt _ (by decide))]

/-! ## Four bytes and a word (R108) -/

section grouping
variable (b0 b1 b2 b3 : Byte)

theorem toNat_be32 : (be32 b0 b1 b2 b3).toNat =
    b0.toNat * 2 ^ 24 + b1.toNat * 2 ^ 16 + b2.toNat * 2 ^ 8 + b3.toNat := by
  rw [be32, BitVec.toNat_ofNat, Nat.mod_eq_of_lt]
  omega

theorem be32_eq_beNumber : be32 b0 b1 b2 b3 = BitVec.ofNat 32 (beNumber [b0, b1, b2, b3]) := by
  rw [← be32_eq_horner]
  simp [beNumber]

theorem be32_byte {k : Nat} (h : k < 4) :
    (be32 b0 b1 b2 b3).extractLsb' (24 - 8 * k) 8 = [b0, b1, b2, b3][k] := by
  have hbyte := byte_of_beNumber [b0, b1, b2, b3] k h
  rw [Nat.mul_sub] at hbyte
  rw [be32_eq_beNumber, extractLsb'_ofNat_of_le _ (by omega)]
  exact hbyte

/-- "`be32` and `bytes_be32` are inverse to each other": the bytes of grouped bytes are those bytes. -/
theorem bytesBe32_be32 : bytesBe32 (be32 b0 b1 b2 b3) = [b0, b1, b2, b3] := by
  have hbyte (k : Nat) (h : k < 4) := be32_byte b0 b1 b2 b3 h
  rw [bytesBe32, hbyte 0 (by decide), hbyte 1 (by decide), hbyte 2 (by decide), hbyte 3 (by decide)]
  rfl

end grouping

/-- The other direction: grouping the bytes of a word gives the word back. -/
theorem be32_of_bytesBe32 {x : Word} {b0 b1 b2 b3 : Byte} (h : bytesBe32 x = [b0, b1, b2, b3]) :
    be32 b0 b1 b2 b3 = x := by
  simp only [bytesBe32, List.cons.injEq, and_true] at h
  obtain ⟨rfl, rfl, rfl, rfl⟩ := h
  exact (be32_extractLsb' x 0).trans BitVec.extractLsb'_eq_self

/-! ## The obligations -/

/-- Settles O51: the bits of a rotation by the normalised amount. -/
theorem rotateMovesEveryBit : Obligations.RotateMovesEveryBit := fun x n _ hj => getLsbD_rotr x n hj

/-- Settles O52: the amounts agree modulo 32, the two fixed words have one bit value throughout. -/
theorem rotateCornerCases : Obligations.RotateCornerCases := by
  intro x n
  have hones : ∀ j < 32, (0xFFFFFFFF : Word).getLsbD j = true := by decide
  have hexamples : rotr 0x00000001 1 = 0x80000000 ∧ rotr 0x12345678 8 = 0x78123456 ∧
      rotr 0x12345678 (-1) = 0x2468ACF0 ∧ rotr 0x12345678 39 = 0xF02468AC ∧ rotr 0x12345678 (-25) = 0xF02468AC := by
    decide
  exact ⟨rotr_zero x, rotr_congr x rfl, rotr_congr x rfl, rotr_congr x rfl, rotr_congr x (Int.add_emod_right n 32),
    rotr_of_constant_bits (fun _ _ => BitVec.getLsbD_zero) n, rotr_of_constant_bits hones n, hexamples⟩

/-- Settles O53: each operation is the bit vector's own. -/
theorem wordPrimitivesAsIntegers : Obligations.WordPrimitivesAsIntegers :=
  fun x y n _ => ⟨toNat_add32 x y, toNat_not32 x, toNat_shr x n⟩

/-- Settles O54: the values of the byte lists are their definitions, the inverses come from the bytes of a number. -/
theorem bigEndianGroupingInverts : Obligations.BigEndianGroupingInverts :=
  ⟨toNat_be32, fun _ => rfl, fun _ => rfl, bytesBe32_be32, fun _ _ _ _ _ => be32_of_bytesBe32,
    fun v _ => beBytes_eight v⟩

end Sys2Proof.Machine

/-! The proofs of the constant-ROM family: each constant behind the integer part of a root makes the root's first 32
fractional bits (R120, R130). -/

namespace Sys2Proof.Machine

/-! ## A root to 32 fractional bits -/

/-- The number with the integer part of the `n`-th root of `p` and the fractional bits `x`, in units of `2^-32`. -/
def rootWithFraction (n p : Nat) (x : Word) : Nat := Nat.nthRoot n p * 2 ^ 32 + x.toNat

theorem rootWithFraction_mod (n p : Nat) (x : Word) : rootWithFraction n p x % 2 ^ 32 = x.toNat := by
  rw [rootWithFraction, Nat.mul_add_mod_self_right, Nat.mod_eq_of_lt x.isLt]

/-- `x` is the first 32 fractional bits of the `n`-th root of `p`: put behind its integer part, it gives the floor of the
root in units of `2^-32`. -/
abbrev IsRootFraction (n p : Nat) (x : Word) : Prop :=
  rootWithFraction n p x ^ n ≤ p * 2 ^ (32 * n) ∧ p * 2 ^ (32 * n) < (rootWithFraction n p x + 1) ^ n

theorem IsRootFraction.exists_floor {n p : Nat} {x : Word} (h : IsRootFraction n p x) :
    ∃ c, c ^ n ≤ p * 2 ^ (32 * n) ∧ p * 2 ^ (32 * n) < (c + 1) ^ n ∧ x.toNat = c % 2 ^ 32 :=
  ⟨rootWithFraction n p x, h.1, h.2, (rootWithFraction_mod n p x).symm⟩

/-! ## The two tables -/

/-- The primes 2 to 311, whose cube roots make `K`; the square roots of the first eight make the IV. -/
def rootPrimes : List Nat :=
  [2, 3, 5, 7, 11, 13, 17, 19, 23, 29, 31, 37, 41, 43, 47, 53] ++
    ([59, 61, 67, 71, 73, 79, 83, 89, 97, 101, 103, 107, 109, 113, 127, 131] ++
    ([137, 139, 149, 151, 157, 163, 167, 173, 179, 181, 191, 193, 197, 199, 211, 223] ++
    [227, 229, 233, 239, 241, 251, 257, 263, 269, 271, 277, 281, 283, 293, 307, 311]))

theorem kLookup_isRootFraction : ∀ i : Fin 64, IsRootFraction 3 (rootPrimes.getD i 0) (kLookup i) := by decide

theorem iv_isRootFraction : ∀ i : Fin 8, IsRootFraction 2 ((rootPrimes.take 8).getD i 0) IV[i] := by decide

/-! ## The obligations -/

/-- Settles O56: every entry of the two tables is the fraction of its root, which pins the floor of the scaled root. -/
theorem constantsAreRootFractions : Obligations.ConstantsAreRootFractions :=
  ⟨fun i => (kLookup_isRootFraction i).exists_floor, fun i => (iv_isRootFraction i).exists_floor⟩

end Sys2Proof.Machine

/-! The proofs of the digest state family: INIT's writes (R131), the lanes of ADDBLOCK (R132), and who writes `H`
(R133). -/

namespace Sys2Proof.Machine

/-! ## ADDBLOCK -/

/-- ADDBLOCK on a defined `H` adds the words and writes nothing else (R132). -/
theorem addBlock_of_defined {s : State} {x : Vector Word 8} (hH : s.H = some x) (delta : Vector Word 8) :
    addBlock delta s = .next { s with H := some (addWords x delta) } := by
  rw [addBlock, hH, readReg_some, andThen_next]

/-- Each lane of the sum is the sum of the two words in that lane (R132). -/
theorem addWords_getElem (x y : Vector Word 8) {i : Nat} (h : i < 8) : (addWords x y)[i] = add32 x[i] y[i] := by
  interval_cases i <;> rfl

/-! ## Who writes `H` -/

section writers
variable {s t : State}

/-- ROUND writes the working variables and nothing else (R175). -/
theorem roundOp_frame {i : Fin 64} (h : roundOp i s = .next t) : t = { s with vars := t.vars } := by
  obtain ⟨v, -, h⟩ := andThen_eq_next.1 h
  obtain ⟨w, -, h⟩ := andThen_eq_next.1 h
  obtain rfl := Host.Outcome.next.inj h
  rfl

/-- So do any number of rounds, whether or not `W` and the working variables are defined (R176). -/
theorem rounds_frame {n : Nat} {hn : n ≤ 64} (h : rounds n hn s = .next t) : t = { s with vars := t.vars } := by
  induction n generalizing t with
  | zero =>
    obtain rfl : s = t := Host.Outcome.next.inj h
    rfl
  | succ n ih =>
    obtain ⟨u, hu, hround⟩ := andThen_eq_next.1 h
    rw [roundOp_frame hround, ih hu]

/-- A command other than RESET, INIT, COMPRESS and HASH leaves `H` alone (R133). -/
theorem exec_keeps_H {i : Instr} (h : exec i s = .next t) :
    i = .reset ∨ i = .init ∨ i = .compress ∨ i = .hash ∨ t.H = s.H := by
  cases i with
  | reset | init | compress | hash => simp
  | append imm8 => obtain ⟨-, rfl⟩ := execAppend_eq_next.1 h; simp
  | pad => obtain ⟨-, rfl⟩ := execPad_eq_next.1 h; simp
  | expand => obtain ⟨-, w, -, rfl⟩ := execExpand_eq_next.1 h; simp
  | finalize => obtain ⟨-, x, -, rfl⟩ := execFinalize_eq_next.1 h; simp

end writers

/-! ## The obligations -/

/-- Settles O36: the commands by the next state of each, the rounds by induction on their number. -/
theorem onlyInitAndAddblockWriteH : Obligations.OnlyInitAndAddblockWriteH :=
  ⟨fun _ _ _ => exec_keeps_H, fun _ _ _ _ => rounds_frame⟩

/-- Settles O11: in `Created` by what INIT answers there, elsewhere by the refusal of a command out of sequence. -/
theorem initLoadsTheInitialConstants : Obligations.InitLoadsTheInitialConstants := by
  refine ⟨rfl, fun s => ⟨fun hp => execInit_eq_next.2 ⟨hp, rfl⟩, fun hpolicy hp => ?_⟩⟩
  calc execInit s = refuseSequence s := if_neg hp
    _ = .refused .outOfSequence := refuseSequence_required hpolicy

/-- Settles O23: the lanes of `addWords`, each a sum of two words as integers. -/
theorem addblockAddsLaneByLane : Obligations.AddblockAddsLaneByLane := by
  intro s x delta hH
  refine ⟨addWords x delta, addBlock_of_defined hH delta, fun i hi => ?_⟩
  rw [addWords_getElem x delta hi, toNat_add32]

end Sys2Proof.Machine

/-! The proofs of the padder family: the zero count and the lengths that follow from it (R141, R144), the bytes PAD
appends (R140, R142), and what the length field at the end of a padded message gives back (R147). -/

namespace Sys2Proof.Machine

/-! ## The zero count (R141) -/

theorem zeroCount_cast (L : Nat) : (zeroCount L : Int) = (55 - (L : Int)) % 64 :=
  Int.toNat_of_nonneg (Int.emod_nonneg _ (by decide))

/-- "`k` is the least natural number with `8*(L + 1 + k) mod 512 = 448`". -/
theorem zeroCount_le {L k : Nat} (h : 8 * (L + 1 + k) % 512 = 448) : zeroCount L ≤ k := by
  obtain ⟨hlt, hmod⟩ := zeroCount_spec L
  omega

/-! ## The bytes PAD appends (R142) -/

section tail
variable {L j : Nat}

theorem padTail_marker : (padTail L)[0]? = some 0x80#8 := rfl

theorem padTail_zeros (h : j < zeroCount L) : (padTail L)[1 + j]? = some 0x00#8 := by
  rw [padTail, Nat.add_comm, List.getElem?_cons_succ, List.getElem?_append_left (by simpa using h),
    List.getElem?_replicate_of_lt h]

theorem padTail_lengthByte (h : j < 8) :
    (padTail L)[1 + zeroCount L + j]? = some (BitVec.ofNat 8 (8 * L / 256 ^ (7 - j))) := by
  rw [padTail, Nat.add_assoc, Nat.add_comm, List.getElem?_cons_succ, List.getElem?_append_right (by simp),
    List.length_replicate, Nat.add_sub_cancel_left, beBytes_getElem? 8 _ j h, Nat.shiftRight_eq_div_pow, Nat.pow_mul]

end tail

section pad
variable {s : State}

/-- R143: a length the machine admits leaves `8*L` in 64 bits, so the three writes of PAD are in their domain. -/
theorem execPad_completes (hp : s.PHASE = .Initialized) (hpad : s.PADDED = false) (hlen : s.LEN ≤ s.MAXLEN.val) :
    execPad s = .next { s with MSG := s.MSG.writeBytes s.LEN (padTail s.LEN), LEN := s.LEN + 9 + zeroCount s.LEN,
                               PADDED := true } := by
  have hbits : 8 * s.LEN < 256 ^ 8 := by
    have := s.MAXLEN.isLt
    omega
  rw [execPad_eq_next.2 ⟨⟨hp, hpad, hbits⟩, rfl⟩, padTail_length, ← Nat.add_assoc]

theorem execPad_refused (hpolicy : s.RESET_POLICY = .required) (h : ¬ (s.PHASE = .Initialized ∧ s.PADDED = false)) :
    execPad s = .refused .outOfSequence :=
  (if_neg h).trans (refuseSequence_required hpolicy)

end pad

/-! ## The length field of a padded message (R140, R147) -/

theorem pad_last_eight (m : List Byte) :
    (pad m).drop ((pad m).length - 8) = bytesBe64 (BitVec.ofNat 64 (8 * m.length)) := by
  rw [pad, List.length_append, bytesBe64_length, Nat.add_sub_cancel, List.drop_left]

/-- Bit `i` of a 64-bit value is bit `i mod 8` of byte `7 - i / 8` (R108). -/
theorem bytesBe64_injective : Function.Injective bytesBe64 := by
  intro v v' h
  refine BitVec.eq_of_getLsbD_eq fun i hi => ?_
  have hc : 7 - i / 8 < 8 := by omega
  have hbyte : some (v.extractLsb' (56 - 8 * (7 - i / 8)) 8) = some (v'.extractLsb' (56 - 8 * (7 - i / 8)) 8) := by
    rw [← bytesBe64_getElem? v _ hc, ← bytesBe64_getElem? v' _ hc, h]
  have hbit := congrArg (BitVec.getLsbD · (i % 8)) (Option.some.inj hbyte)
  simpa [BitVec.getLsbD_extractLsb', Nat.mod_lt, show 56 - 8 * (7 - i / 8) + i % 8 = i by omega] using hbit

/-- "the last 8 bytes give `L`" (R147). -/
theorem length_of_last_eight {m : List Byte} {v : BitVec 64} (hm : m.length < 2 ^ 61)
    (h : (pad m).drop ((pad m).length - 8) = bytesBe64 v) : v.toNat = 8 * m.length := by
  obtain rfl := bytesBe64_injective ((pad_last_eight m).symm.trans h)
  rw [BitVec.toNat_ofNat, Nat.mod_eq_of_lt (by omega)]

/-- Equal padded messages have the same length field, hence the messages are equally long beginnings of one list. -/
theorem pad_injective {m m' : List Byte} (hm : m.length < 2 ^ 61) (hm' : m'.length < 2 ^ 61) (h : pad m = pad m') :
    m = m' := by
  have hfield := length_of_last_eight hm (h ▸ pad_last_eight m')
  have hlen : m.length = m'.length := by
    rw [BitVec.toNat_ofNat, Nat.mod_eq_of_lt (by omega)] at hfield
    omega
  rw [pad_eq, pad_eq] at h
  exact List.append_inj_left h hlen

/-! ## The obligations -/

/-- Settles O12: PAD is one write of `padTail`, read inside it byte by byte and outside it. -/
theorem padAppendsMarkerZerosAndLength : Obligations.PadAppendsMarkerZerosAndLength := by
  refine ⟨rfl, fun s => ⟨fun hp hpad hlen => ?_, execPad_refused⟩⟩
  have hinside {a k : Nat} (ha : a = s.LEN + k) (hk : k < 9 + zeroCount s.LEN) :
      (s.MSG.writeBytes s.LEN (padTail s.LEN)).read a = (padTail s.LEN)[k]? := by
    rw [ha, read_writeBytes_inside _ _ _ (by rwa [padTail_length])]
  refine ⟨_, execPad_completes hp hpad hlen, rfl, ?_, fun j hj => ?_, fun j hj => ?_, fun a ha => ?_⟩
  · exact (hinside rfl (by omega)).trans padTail_marker
  · exact (hinside (Nat.add_assoc ..) (by omega)).trans (padTail_zeros hj)
  · exact (hinside (by omega) (by omega)).trans (padTail_lengthByte hj)
  · exact read_writeBytes_outside _ _ _ (by rwa [padTail_length, ← Nat.add_assoc])

/-- Settles O13: the write of `padTail` behind `m` makes the buffer hold `pad m`. -/
theorem padComputesThePaddingFunction : Obligations.PadComputesThePaddingFunction := by
  intro s m hp hpad hmsg hlen hmax
  have hbuffer : s.MSG.writeBytes s.LEN (padTail s.LEN) = Memory.ofBytesAt 0 (pad m) := by
    rw [hmsg, hlen, writeBytes_ofBytes, pad_eq]
  rw [pad_length, ← hbuffer, ← hlen]
  exact execPad_completes hp hpad (hlen ▸ hmax)

/-- Settles O43: all but the exact value and the minimality is linear arithmetic from `zeroCount_spec`. -/
theorem zeroCountIsLeast : Obligations.ZeroCountIsLeast := by
  intro m
  obtain ⟨hlt, hmod⟩ := zeroCount_spec m.length
  rw [pad_length]
  refine ⟨zeroCount_cast _, ?_, fun k => zeroCount_le, ?_, rfl, ?_, ?_, ?_, ?_, rfl, ?_, ?_⟩ <;> omega

/-- Settles O45, by the length field at the end of a padded message. -/
theorem padIsInjective : Obligations.PadIsInjective :=
  fun _ _ hm hm' => ⟨pad_injective hm hm', fun _ => length_of_last_eight hm⟩

/-- Settles O44: the printed numbers by evaluation, the last eight bytes because the printed field is `8*L`. -/
theorem paddingTableOfCornerCases : Obligations.PaddingTableOfCornerCases := by
  intro row hrow
  have hvalues : zeroCount row.1 = row.2.1 ∧ row.1 + 9 + zeroCount row.1 = row.2.2.1 ∧
      blockCount row.1 = row.2.2.2.1 ∧ 8 * row.1 = row.2.2.2.2 := by
    revert row
    decide
  obtain ⟨hzeros, hlength, hblocks, hfield⟩ := hvalues
  refine ⟨hzeros, hlength, hblocks, fun m hm => ?_⟩
  rw [pad_last_eight, hm, hfield]

end Sys2Proof.Machine

/-! The proofs of the scheduler family: the bits of the sigma functions (R160, R161, R170, R172), the recurrence of a
schedule (R162, R163), and where EXPAND runs and where it is refused (R164). -/

namespace Sys2Proof.Machine

/-! ## The sigma functions (R160, R161, R170, R172) -/

section sigma
variable (x : Word) (n k : Int) {j : Nat}

/-- The large sigmas: three rotations, so every bit of `x` comes round. -/
theorem getLsbD_xor_three_rotr (m : Int) (hj : j < 32) :
    (rotr x n ^^^ rotr x k ^^^ rotr x m).getLsbD j =
      ((x.getLsbD ((j + (n % 32).toNat) % 32) ^^ x.getLsbD ((j + (k % 32).toNat) % 32)) ^^
        x.getLsbD ((j + (m % 32).toNat) % 32)) := by
  rw [BitVec.getLsbD_xor, BitVec.getLsbD_xor, getLsbD_rotr x n hj, getLsbD_rotr x k hj, getLsbD_rotr x m hj]

/-- The small sigmas: "The third term is a shift, not a rotation", its index is not taken modulo 32. -/
theorem getLsbD_xor_two_rotr_shr (m : Nat) (hj : j < 32) :
    (rotr x n ^^^ rotr x k ^^^ shr x m).getLsbD j =
      ((x.getLsbD ((j + (n % 32).toNat) % 32) ^^ x.getLsbD ((j + (k % 32).toNat) % 32)) ^^ x.getLsbD (j + m)) := by
  rw [BitVec.getLsbD_xor, BitVec.getLsbD_xor, getLsbD_rotr x n hj, getLsbD_rotr x k hj, getLsbD_shr, Nat.add_comm m]

end sigma

/-! ## The recurrence (R163) -/

/-- R163 for a schedule of any length: each word was the newest when it was made, and none has changed since. -/
theorem schedule_recurrence (f : Vector Word 16) {n N : Nat} (h : n < N) :
    (schedule f N)[16 + n] =
      add32 (add32 (add32 (schedule f N)[n] (sigma0 (schedule f N)[n + 1])) (schedule f N)[n + 9])
        (sigma1 (schedule f N)[n + 14]) := by
  induction N with
  | zero => exact absurd h (Nat.not_lt_zero n)
  | succ N ih =>
    rw [schedule_getElem_succ f N n (by omega), schedule_getElem_succ f N (n + 1) (by omega),
      schedule_getElem_succ f N (n + 9) (by omega), schedule_getElem_succ f N (n + 14) (by omega)]
    obtain hlt | rfl := Nat.lt_succ_iff_lt_or_eq.1 h
    · rw [schedule_getElem_succ f N (16 + n) (by omega)]
      exact ih hlt
    · exact schedule_getElem_last f n

/-- R102: the three additions of the recurrence reduce once. -/
theorem toNat_add32_four (x y z w : Word) :
    (add32 (add32 (add32 x y) z) w).toNat = (x.toNat + y.toNat + z.toNat + w.toNat) % 2 ^ 32 := by
  rw [toNat_add32, toNat_add32, toNat_add32]
  omega

/-! ## EXPAND (R164) -/

section expand
variable {s : State}

theorem execExpand_completes {B : Vector Byte 64} (hpad : s.PADDED = true) (hblk : s.BLK < s.LEN / 64)
    (hp : s.PHASE = .Initialized ∨ s.PHASE = .Compressed)
    (hB : ∀ (k : Nat) (h : k < 64), s.MSG.read (64 * s.BLK + k) = some B[k]) :
    execExpand s = .next { s with W := some (expand B), PHASE := .Expanded } := by
  have hread : readWords s s.BLK 16 = .next (groupWords B 16 (Nat.le_refl 16)) := readWords_eq (by omega) hB 16 _
  exact execExpand_eq_next.2 ⟨⟨hpad, blockLeft_iff.2 ⟨hpad, hblk⟩, hp⟩, _, hread, rfl⟩

theorem execExpand_refused (hpolicy : s.RESET_POLICY = .required)
    (h : ¬ (s.PADDED = true ∧ s.BLK < s.LEN / 64 ∧ (s.PHASE = .Initialized ∨ s.PHASE = .Compressed))) :
    execExpand s = .refused .outOfSequence := by
  have hguard : ¬ (s.PADDED = true ∧ s.blockLeft = true ∧ (s.PHASE = .Initialized ∨ s.PHASE = .Compressed)) :=
    fun ⟨hpad, hleft, hp⟩ => h ⟨hpad, (blockLeft_iff.1 hleft).2, hp⟩
  exact (if_neg hguard).trans (refuseSequence_required hpolicy)

end expand

/-! ## The obligations -/

/-- Settles O14: EXPAND's reads over the bytes of the block give the block's words. -/
theorem expandWritesTheSchedule : Obligations.ExpandWritesTheSchedule :=
  ⟨rfl, fun _ => ⟨fun _ => execExpand_completes, execExpand_refused⟩⟩

/-- Settles O47: the first words by `groupWords`, word `i = 16 + n` by the recurrence. -/
theorem scheduleFollowsTheRecurrence : Obligations.ScheduleFollowsTheRecurrence := by
  refine fun B => ⟨expand_getElem B, fun i h hi => ?_⟩
  obtain ⟨n, rfl⟩ := Nat.exists_eq_add_of_le hi
  have hword := schedule_recurrence (groupWords B 16 (Nat.le_refl 16)) (show n < 48 by omega)
  simp only [show 16 + n - 16 = n by omega, show 16 + n - 15 = n + 1 by omega, show 16 + n - 7 = n + 9 by omega,
    show 16 + n - 2 = n + 14 by omega]
  exact (congrArg BitVec.toNat hword).trans (toNat_add32_four ..)

/-- Settles O50: the two shapes of a sigma function at the amounts of R160, R161, R172 and R170. -/
theorem sigmaFunctionsBitByBit : Obligations.SigmaFunctionsBitByBit := fun x _ hj =>
  ⟨getLsbD_xor_two_rotr_shr x 7 18 3 hj, getLsbD_xor_two_rotr_shr x 17 19 10 hj,
    getLsbD_xor_three_rotr x 2 13 22 hj, getLsbD_xor_three_rotr x 6 11 25 hj⟩

end Sys2Proof.Machine

/-! The proofs of the compressor family: `ch` and `maj` bit by bit (R171, R173), LOADVARS and a round from the old
working variables (R174, R175), the 64 rounds in order (R176, R177), and where COMPRESS runs and where it is refused
(R178). -/

namespace Sys2Proof.Machine

/-! ## `ch` and `maj` (R171, R173) -/

section bits
variable (x y z : Word) (j : Nat)

/-- The complement is within 32 bits (R103), and above them `y` has no bit either. -/
theorem getLsbD_not32_and : (not32 x &&& y).getLsbD j = (!x.getLsbD j && y.getLsbD j) := by
  rw [not32_eq_not, BitVec.getLsbD_and, BitVec.getLsbD_not]
  by_cases hj : j < 32
  · simp [hj]
  · simp [hj, BitVec.getLsbD_of_ge y j (by omega)]

/-- "where a bit of `e` is 1 the result bit is that of `f`, where it is 0 that of `g`" (R171). -/
theorem getLsbD_ch : (ch x y z).getLsbD j = if x.getLsbD j then y.getLsbD j else z.getLsbD j := by
  rw [ch, BitVec.getLsbD_xor, BitVec.getLsbD_and, getLsbD_not32_and]
  cases x.getLsbD j <;> simp

/-- The two terms of `ch` have no bit in common, so exclusive and inclusive or agree on them (R171). -/
theorem ch_eq_or : ch x y z = (x &&& y) ||| (not32 x &&& z) := by
  refine BitVec.eq_of_getLsbD_eq fun j _ => ?_
  rw [getLsbD_ch, BitVec.getLsbD_or, BitVec.getLsbD_and, getLsbD_not32_and]
  cases x.getLsbD j <;> simp

theorem ch_zero : ch 0#32 y z = z :=
  BitVec.eq_of_getLsbD_eq fun j _ => by rw [getLsbD_ch, BitVec.getLsbD_zero, if_neg Bool.false_ne_true]

theorem ch_allOnes : ch (BitVec.allOnes 32) y z = y :=
  BitVec.eq_of_getLsbD_eq fun j hj => by rw [getLsbD_ch, BitVec.getLsbD_allOnes, if_pos (decide_eq_true hj)]

theorem ch_self : ch x y y = y :=
  BitVec.eq_of_getLsbD_eq fun j _ => by rw [getLsbD_ch, ite_self]

/-- "the bitwise majority" (R173). -/
theorem getLsbD_maj : (maj x y z).getLsbD j =
    decide (2 ≤ (x.getLsbD j).toNat + (y.getLsbD j).toNat + (z.getLsbD j).toNat) := by
  simp only [maj, BitVec.getLsbD_xor, BitVec.getLsbD_and]
  cases x.getLsbD j <;> cases y.getLsbD j <;> cases z.getLsbD j <;> rfl

theorem maj_swap_left : maj x y z = maj y x z :=
  BitVec.eq_of_getLsbD_eq fun j _ => by rw [getLsbD_maj, getLsbD_maj, Nat.add_comm (x.getLsbD j).toNat]

theorem maj_swap_right : maj x y z = maj x z y :=
  BitVec.eq_of_getLsbD_eq fun j _ => by rw [getLsbD_maj, getLsbD_maj, Nat.add_right_comm]

theorem maj_self : maj x x z = x := by
  rw [maj, BitVec.and_self, BitVec.xor_assoc, BitVec.xor_self, BitVec.xor_zero]

theorem maj_zero : maj 0#32 y z = y &&& z := by
  rw [maj, BitVec.zero_and, BitVec.zero_and, BitVec.xor_zero, BitVec.zero_xor]

theorem maj_allOnes : maj (BitVec.allOnes 32) y z = y ||| z := by
  refine BitVec.eq_of_getLsbD_eq fun j hj => ?_
  rw [getLsbD_maj, BitVec.getLsbD_allOnes, decide_eq_true hj, BitVec.getLsbD_or]
  cases y.getLsbD j <;> cases z.getLsbD j <;> rfl

end bits

/-! ## A round (R175) -/

/-- The four additions of `temp1` reduce once (R102, R175). -/
theorem toNat_temp1 (v : Vars) (k w : Word) : (temp1 v k w).toNat =
    (v.h.toNat + (Sigma1 v.e).toNat + (ch v.e v.f v.g).toNat + k.toNat + w.toNat) % 2 ^ 32 := by
  rw [temp1, toNat_add32, toNat_add32_four, Nat.mod_add_mod]

theorem toNat_temp2 (v : Vars) : (temp2 v).toNat = ((Sigma0 v.a).toNat + (maj v.a v.b v.c).toNat) % 2 ^ 32 :=
  toNat_add32 ..

/-- ROUND on defined registers is the function `roundVars`, and writes nothing else (R175). -/
theorem roundOp_of_defined {s : State} {v : Vars} {w : Vector Word 64} (i : Fin 64) (hvars : s.vars = some v)
    (hW : s.W = some w) : roundOp i s = .next { s with vars := some (roundVars v (kLookup i) w[i]) } := by
  rw [roundOp, hvars, readReg_some, andThen_next, hW, readReg_some, andThen_next]

/-! ## The rounds of a block (R176, R177) -/

/-- The working variables of `compress(Hin, w)` when `n` rounds have run; past the last round, where there are none,
the value is of no account. -/
def varsAfter (Hin : Vector Word 8) (w : Vector Word 64) (n : Nat) : Vars :=
  if h : n ≤ 64 then roundsVars w n h (Vars.ofWords Hin) else Vars.ofWords Hin

section block
variable (x : Vector Word 8) (w : Vector Word 64)

theorem varsAfter_of_le {n : Nat} (h : n ≤ 64) : varsAfter x w n = roundsVars w n h (Vars.ofWords x) := dif_pos h

theorem varsAfter_zero : varsAfter x w 0 = Vars.ofWords x := varsAfter_of_le x w (Nat.zero_le 64)

theorem varsAfter_succ (i : Fin 64) :
    varsAfter x w (i + 1) = roundVars (varsAfter x w i) (kLookup i) w[i] := by
  rw [varsAfter_of_le x w i.isLt, varsAfter_of_le x w i.isLt.le]
  rfl

/-- Each word of `compress` is the old word plus the variable of that place after round 63 (R177). -/
theorem toNat_compress_getElem {k : Nat} (h : k < 8) :
    (compress x w)[k].toNat = (x[k].toNat + (varsAfter x w 64).toWords[k].toNat) % 2 ^ 32 := by
  rw [varsAfter_of_le x w (Nat.le_refl 64), compress, addWords_getElem _ _ h, toNat_add32]

end block

/-! ## COMPRESS out of sequence (R178) -/

theorem execCompress_refused {s : State} (hpolicy : s.RESET_POLICY = .required) (hp : s.PHASE ≠ .Expanded) :
    execCompress s = .refused .outOfSequence :=
  (if_neg hp).trans (refuseSequence_required hpolicy)

/-! ## The obligations -/

/-- Settles O15: in `Expanded` by the next state of COMPRESS on defined registers, elsewhere by its refusal. -/
theorem compressFoldsTheBlock : Obligations.CompressFoldsTheBlock :=
  ⟨rfl, fun _ => ⟨fun _ _ => execCompress_of_defined, execCompress_refused⟩⟩

/-- Settles O24: the sequence is `varsAfter`, each member the round of the one before. -/
theorem compressRunsTheRoundsInOrder : Obligations.CompressRunsTheRoundsInOrder := by
  refine fun x w => ⟨varsAfter x w, varsAfter_zero x w, fun i => ?_, fun k hk => toNat_compress_getElem x w hk⟩
  rw [varsAfter_succ]
  exact ⟨temp1 (varsAfter x w i) (kLookup i) w[i], temp2 (varsAfter x w i), toNat_temp1 .., toNat_temp2 ..,
    toNat_add32 .., rfl, rfl, rfl, toNat_add32 .., rfl, rfl, rfl⟩

/-- Settles O21: the correspondence of `H[0..7]` to `a .. h` is the one of `Vars.ofWords`. -/
theorem loadvarsCopiesTheStateWords : Obligations.LoadvarsCopiesTheStateWords := fun _ _ => loadVars_of_defined

/-- Settles O22: the new variables are those of `roundVars`, its sums read as integers. -/
theorem roundUpdatesTheWorkingVariables : Obligations.RoundUpdatesTheWorkingVariables := fun _ i v w hvars hW =>
  ⟨temp1 v (kLookup i) w[i], temp2 v, roundVars v (kLookup i) w[i], toNat_temp1 .., toNat_temp2 .., toNat_add32 ..,
    rfl, rfl, rfl, toNat_add32 .., rfl, rfl, rfl, roundOp_of_defined i hvars hW⟩

/-- Settles O49: `ch` and `maj` by their bits, the corner cases one by one from these. -/
theorem chooseAndMajority : Obligations.ChooseAndMajority :=
  ⟨getLsbD_ch, ch_eq_or, fun y z => ⟨ch_zero y z, ch_allOnes y z, ch_self z y⟩, getLsbD_maj,
    fun x y z => ⟨maj_swap_left x y z, maj_swap_right x y z, maj_self x z, maj_zero y z, maj_allOnes y z⟩⟩

end Sys2Proof.Machine

/-! The proofs of the finalizer family: the bytes of `serialize` (R200), where FINALIZE runs and where it is refused
(R201), the writers of `DIGEST` and the one way out of `Finalized` (R202), and the digits of `toHexString` (R203). -/

namespace Sys2Proof.Machine

/-! ## `serialize` (R200) -/

/-- Each of the 32 places of the serialised state, by its word and its byte within the word. -/
theorem serialize_getElem (x : Vector Word 8) (i j : Nat) (hi : i < 8) (hj : j < 4) :
    (serialize x)[4 * i + j] = x[i].extractLsb' (24 - 8 * j) 8 := by
  interval_cases i <;> interval_cases j <;> rfl

/-! ## FINALIZE (R201) -/

section commands
variable {s t : State} {i : Instr}

theorem execFinalize_of_defined {x : Vector Word 8} (hp : s.PHASE = .Compressed) (hpad : s.PADDED = true)
    (hblk : s.BLK = s.LEN / 64) (hH : s.H = some x) : execFinalize s = .next
      { s with DIGEST := some (serialize x), PHASE := .Finalized, out := s.out ++ [serialize x] } :=
  execFinalize_eq_next.2 ⟨⟨hp, NBLK_eq_some.2 ⟨hpad, hblk⟩⟩, x, hH, rfl⟩

theorem execFinalize_refused (hpolicy : s.RESET_POLICY = .required)
    (h : ¬ (s.PHASE = .Compressed ∧ s.PADDED = true ∧ s.BLK = s.LEN / 64)) :
    execFinalize s = .refused .outOfSequence := by
  rw [← NBLK_eq_some] at h
  exact (if_neg h).trans (refuseSequence_required hpolicy)

/-! ## The writers of `DIGEST`, and the way out of `Finalized` (R202) -/

theorem exec_keeps_DIGEST (hreset : i ≠ .reset) (hfinalize : i ≠ .finalize) (hhash : i ≠ .hash)
    (h : exec i s = .next t) : t.DIGEST = s.DIGEST := by
  cases i with
  | reset => exact absurd rfl hreset
  | append imm8 => obtain ⟨-, rfl⟩ := execAppend_eq_next.1 h; rfl
  | init => obtain ⟨-, rfl⟩ := execInit_eq_next.1 h; rfl
  | pad => obtain ⟨-, rfl⟩ := execPad_eq_next.1 h; rfl
  | expand => obtain ⟨-, w, -, rfl⟩ := execExpand_eq_next.1 h; rfl
  | compress => obtain ⟨-, x, w, -, -, rfl⟩ := execCompress_eq_next.1 h; rfl
  | finalize => exact absurd rfl hfinalize
  | hash => exact absurd rfl hhash

/-- Every command but RESET asks for another phase. -/
theorem eq_reset_of_exec_finalized (hp : s.PHASE = .Finalized) (h : exec i s = .next t) : i = .reset := by
  cases i with
  | reset => rfl
  | append imm8 => obtain ⟨⟨hp', -⟩, -⟩ := execAppend_eq_next.1 h; cases hp.symm.trans hp'
  | init => obtain ⟨hp', -⟩ := execInit_eq_next.1 h; cases hp.symm.trans hp'
  | pad => obtain ⟨⟨hp', -⟩, -⟩ := execPad_eq_next.1 h; cases hp.symm.trans hp'
  | expand =>
    obtain ⟨⟨-, -, hp' | hp'⟩, -⟩ := execExpand_eq_next.1 h
    · cases hp.symm.trans hp'
    · cases hp.symm.trans hp'
  | compress => obtain ⟨hp', -⟩ := execCompress_eq_next.1 h; cases hp.symm.trans hp'
  | finalize => obtain ⟨⟨hp', -⟩, -⟩ := execFinalize_eq_next.1 h; cases hp.symm.trans hp'
  | hash => obtain ⟨hp', -⟩ := execHash_eq_next.1 h; cases hp.symm.trans hp'

end commands

/-! ## The hex helper (R203) -/

/-- `hexDigit` is the table of R203. -/
theorem hexDigits_getElem? : ∀ v : BitVec 4, "0123456789abcdef".toList[v.toNat]? = some (hexDigit v) := by decide

theorem hexDigit_high (v : Byte) : "0123456789abcdef".toList[v.toNat / 16]? = some (hexDigit (v.extractLsb' 4 4)) := by
  have hnibble : v.toNat / 2 ^ 4 % 2 ^ 4 = v.toNat / 16 := by omega
  rw [← hexDigits_getElem?, BitVec.extractLsb'_toNat, Nat.shiftRight_eq_div_pow, hnibble]

theorem hexDigit_low (v : Byte) : "0123456789abcdef".toList[v.toNat % 16]? = some (hexDigit (v.extractLsb' 0 4)) := by
  rw [← hexDigits_getElem?, BitVec.extractLsb'_toNat, Nat.shiftRight_zero]

theorem hexChars_length (s : List Byte) : (hexChars s).length = 2 * s.length := by
  induction s with
  | nil => rfl
  | cons v s ih => rw [hexChars, List.length_cons, List.length_cons, List.length_cons, ih]; omega

theorem hexChars_getElem? (s : List Byte) (i : Nat) (h : i < s.length) :
    (hexChars s)[2 * i]? = some (hexDigit (s[i].extractLsb' 4 4)) ∧
    (hexChars s)[2 * i + 1]? = some (hexDigit (s[i].extractLsb' 0 4)) := by
  induction s generalizing i with
  | nil => exact absurd h (Nat.not_lt_zero i)
  | cons v s ih =>
    cases i with
    | zero => exact ⟨rfl, rfl⟩
    | succ i => exact ih i (Nat.lt_of_succ_lt_succ h)

/-! ## The obligations -/

/-- Settles O37: the writers of `DIGEST` and the phase each command asks for are read off what each command can answer;
in `Finalized` the port gives `DIGEST`. -/
theorem digestIsWrittenOnceAndKept : Obligations.DigestIsWrittenOnceAndKept := by
  refine ⟨fun s t i h => ⟨fun hi => ?_, fun hr hf hh => exec_keeps_DIGEST hr hf hh h⟩,
    fun _ _ _ => eq_reset_of_exec_finalized,
    fun _ _ hp hd => ⟨digestPort_of_finalized hp hd, _, hostRead_of_finalized hp hd, rfl⟩⟩
  subst hi
  obtain rfl := execReset_eq_next.1 h
  exact clear_DIGEST s

/-- Settles O16: where the last block is folded by the next state of FINALIZE, elsewhere by its refusal. -/
theorem finalizeSerializesTheState : Obligations.FinalizeSerializesTheState :=
  ⟨rfl, fun _ => ⟨fun _ => execFinalize_of_defined, execFinalize_refused⟩⟩

/-- Settles O55: eight bits of a word, as an integer. -/
theorem serializeOrdersTheBytes : Obligations.SerializeOrdersTheBytes := by
  intro x i j hi hj
  rw [serialize_getElem x i j hi hj, BitVec.extractLsb'_toNat, Nat.shiftRight_eq_div_pow]

/-- Settles O57, by induction on the bytes; the digit of a nibble is the one the table has at its value. -/
theorem hexHelperWritesTwoDigitsAByte : Obligations.HexHelperWritesTwoDigitsAByte := by
  refine fun s => ⟨hexChars_length s, fun i h => ?_, String.toList_ofList⟩
  rw [hexDigit_high, hexDigit_low]
  exact hexChars_getElem? s i h

end Sys2Proof.Machine

/-! The proofs of the engine family: when a command is in sequence (R210, R219) and what it answers when it is not
(R218, R219, R245), the block loop and HASH on a buffer that holds a message (R213, R215, R220), RESET, APPEND and
HASHMSG (R211, R212, R215, R270), and the bytes of generic elements (R216). -/

namespace Sys2Proof.Machine

/-! ## In sequence and out of sequence (R219, R245) -/

/-- The state lets the command through its check of the sequence: its row of the transitions of R210, APPEND's capacity
aside. -/
def State.InSequence (s : State) : Mnemonic → Prop
  | .RESET => True
  | .APPEND => s.PHASE = .Created
  | .INIT => s.PHASE = .Created
  | .PAD => s.PHASE = .Initialized ∧ s.PADDED = false
  | .EXPAND => s.PADDED = true ∧ s.BLK < s.LEN / 64 ∧ (s.PHASE = .Initialized ∨ s.PHASE = .Compressed)
  | .COMPRESS => s.PHASE = .Expanded
  | .FINALIZE => s.PHASE = .Compressed ∧ s.PADDED = true ∧ s.BLK = s.LEN / 64
  | .HASH => s.PHASE = .Created

section sequence
variable {s t : State} {i : Instr}

theorem exec_out_of_sequence (h : ¬ s.InSequence i.mnemonic) : exec i s = refuseSequence s := by
  cases i with
  | reset => exact absurd trivial h
  | append imm8 => exact if_neg h
  | init => exact if_neg h
  | pad => exact if_neg h
  | expand =>
    refine if_neg fun ⟨hpad, hleft, hp⟩ => h ⟨hpad, ?_, hp⟩
    exact (blockLeft_iff.1 hleft).2
  | compress => exact if_neg h
  | finalize =>
    refine if_neg fun ⟨hp, hblk⟩ => h ⟨hp, ?_⟩
    exact NBLK_eq_some.1 hblk
  | hash => exact if_neg h

theorem exec_refused (hpolicy : s.RESET_POLICY = .required) (h : ¬ s.InSequence i.mnemonic) :
    exec i s = .refused .outOfSequence :=
  (exec_out_of_sequence h).trans (refuseSequence_required hpolicy)

/-- A command that completes was in sequence. -/
theorem inSequence_of_exec (h : exec i s = .next t) : s.InSequence i.mnemonic := by
  by_contra hseq
  exact refuseSequence_ne_next s t ((exec_out_of_sequence hseq).symm.trans h)

/-- In `Finalized` only RESET is in sequence (R210). -/
theorem not_inSequence_of_finalized (hp : s.PHASE = .Finalized) (hi : i ≠ .reset) : ¬ s.InSequence i.mnemonic := by
  cases i with
  | reset => exact absurd rfl hi
  | _ => simp [State.InSequence, Instr.mnemonic, hp]

/-- The phase a completed command leaves (R210). -/
theorem phase_of_exec (h : exec i s = .next t) : t.PHASE = phaseAfter i.mnemonic := by
  cases i with
  | reset => obtain rfl := execReset_eq_next.1 h; rfl
  | append imm8 => obtain ⟨⟨hp, -⟩, rfl⟩ := execAppend_eq_next.1 h; exact hp
  | init => obtain ⟨-, rfl⟩ := execInit_eq_next.1 h; rfl
  | pad => obtain ⟨⟨hp, -⟩, rfl⟩ := execPad_eq_next.1 h; exact hp
  | expand => obtain ⟨-, w, -, rfl⟩ := execExpand_eq_next.1 h; rfl
  | compress => obtain ⟨-, x, w, -, -, rfl⟩ := execCompress_eq_next.1 h; rfl
  | finalize => obtain ⟨-, x, -, rfl⟩ := execFinalize_eq_next.1 h; rfl
  | hash => obtain ⟨x, v, w, rfl⟩ := execHash_frame h; rfl

end sequence

/-! ## APPEND (R212) -/

section append
variable {s : State}

theorem execAppend_of_full (imm8 : Byte) (hp : s.PHASE = .Created) (hfull : s.MAXLEN.val ≤ s.LEN) :
    execAppend imm8 s = .refused .capacity := by
  rw [execAppend, if_pos hp, if_neg (Nat.not_lt.2 hfull)]

/-- APPEND on a buffer that holds exactly `bs`. -/
theorem execAppend_of_buffer {bs : List Byte} (b : Byte) (hp : s.PHASE = .Created)
    (hmsg : s.MSG = Memory.ofBytesAt 0 bs) (hlen : s.LEN = bs.length) (hroom : bs.length < s.MAXLEN.val) :
    execAppend b s = .next { s with MSG := Memory.ofBytesAt 0 (bs ++ [b]), LEN := (bs ++ [b]).length } := by
  rw [execAppend_eq_next.2 ⟨⟨hp, hlen ▸ hroom⟩, rfl⟩, hmsg, hlen, writeBytes_ofBytes, List.length_append,
    List.length_singleton]

end append

/-! ## One block, and the block loop of HASH (R213, R214) -/

/-- The state with the blocks of `p` up to block `j` folded into `H`, from `x` on. -/
def State.folded (s : State) (x : Vector Word 8) (p : List Byte) (j : Nat) : State :=
  { s with H := some (foldBlocks x (splitBlocks j p)), vars := none, W := none, BLK := j, PHASE := .Compressed }

section blocks
variable {s : State} {x : Vector Word 8} {p : List Byte}

/-- EXPAND on a buffer that holds `p`: the schedule of block `BLK` of `p`. -/
theorem execExpand_of_buffer (hmsg : s.MSG = Memory.ofBytesAt 0 p) (hlen : s.LEN = p.length)
    (hseq : s.InSequence .EXPAND) : ∃ B : Vector Byte 64,
      splitBlocks (s.BLK + 1) p = splitBlocks s.BLK p ++ [B] ∧
      execExpand s = .next { s with W := some (expand B), PHASE := .Expanded } := by
  obtain ⟨hpad, hblk, hp⟩ := hseq
  obtain ⟨B, hsplit, hread⟩ := readWords_of_buffer hmsg hlen hblk
  exact ⟨B, hsplit, execExpand_eq_next.2 ⟨⟨hpad, blockLeft_iff.2 ⟨hpad, hblk⟩, hp⟩, _, hread, rfl⟩⟩

/-- EXPAND and COMPRESS fold one block of the buffer, and the rest of the loop goes on from there. -/
theorem runBlocks_succ_of_buffer (hmsg : s.MSG = Memory.ofBytesAt 0 p) (hlen : s.LEN = p.length)
    (hseq : s.InSequence .EXPAND) (hH : s.H = some (foldBlocks x (splitBlocks s.BLK p))) (n : Nat) :
    runBlocks (n + 1) s = runBlocks n (s.folded x p (s.BLK + 1)) := by
  obtain ⟨B, hsplit, hexpand⟩ := execExpand_of_buffer hmsg hlen hseq
  have hcompress := execCompress_of_defined (s := { s with W := some (expand B), PHASE := .Expanded }) rfl hH rfl
  rw [runBlocks, hexpand, andThen_next, hcompress, andThen_next, State.folded, hsplit, foldBlocks_append]

/-- The loop, run once or more, folds the blocks of the buffer up to block `k`. -/
theorem runBlocks_of_buffer {n k : Nat} (hmsg : s.MSG = Memory.ofBytesAt 0 p) (hlen : s.LEN = p.length)
    (hpad : s.PADDED = true) (hp : s.PHASE = .Initialized ∨ s.PHASE = .Compressed)
    (hH : s.H = some (foldBlocks x (splitBlocks s.BLK p))) (hk : s.BLK + (n + 1) = k) (hleft : k ≤ s.LEN / 64) :
    runBlocks (n + 1) s = .next (s.folded x p k) := by
  rw [runBlocks_succ_of_buffer hmsg hlen ⟨hpad, by omega, hp⟩ hH]
  induction n generalizing s with
  | zero => exact hk ▸ rfl
  | succ n ih =>
    have hcount : s.BLK + 1 + (n + 1) = k := by omega
    have hblk : s.BLK + 1 < s.LEN / 64 := by omega
    rw [runBlocks_succ_of_buffer (s := s.folded x p (s.BLK + 1)) hmsg hlen ⟨hpad, hblk, .inr rfl⟩ rfl]
    exact ih (s := s.folded x p (s.BLK + 1)) hmsg hlen hpad (.inr rfl) rfl hcount hleft

end blocks

/-! ## HASH on a buffer that holds a message (R213, R215) -/

/-- The state that INIT and PAD make of one whose buffer holds `m` (R131, R142). -/
def State.initPadded (s : State) (m : List Byte) : State :=
  { s with
    H := some IV, MSG := Memory.ofBytesAt 0 (pad m), LEN := (pad m).length, PADDED := true, PHASE := .Initialized }

/-- HASH of a message within capacity: the padded buffer, all its blocks folded, and the digest of the message. -/
theorem execHash_of_buffer {s : State} {m : List Byte} (hp : s.PHASE = .Created) (hpad : s.PADDED = false)
    (hblk : s.BLK = 0) (hmsg : s.MSG = Memory.ofBytesAt 0 m) (hlen : s.LEN = m.length)
    (hmax : m.length ≤ s.MAXLEN.val) : execHash s = .next
      { (s.initPadded m).folded IV (pad m) (blockCount m.length) with
        DIGEST := some (hashMessage m), PHASE := .Finalized, out := s.out ++ [hashMessage m] } := by
  have hpadding : execPad { s with H := some IV, PHASE := .Initialized } = .next (s.initPadded m) :=
    padComputesThePaddingFunction { s with H := some IV, PHASE := .Initialized } m rfl hpad hmsg hlen hmax
  have hcount : (s.initPadded m).LEN / 64 = blockCount m.length := pad_length_div m
  have hH : (s.initPadded m).H = some (foldBlocks IV (splitBlocks s.BLK (pad m))) := by rw [hblk]; rfl
  have hblocks : runBlocks (blockCount m.length) (s.initPadded m) =
      .next ((s.initPadded m).folded IV (pad m) (blockCount m.length)) :=
    runBlocks_of_buffer rfl rfl rfl (.inl rfl) hH (hblk ▸ Nat.zero_add _) hcount.ge
  have hfinalize := execFinalize_of_defined (s := (s.initPadded m).folded IV (pad m) (blockCount m.length)) rfl rfl
    hcount.symm rfl
  exact execHash_eq_next.2 ⟨hp, _, _, hpadding, hcount ▸ hblocks, hfinalize⟩

/-! ## Commands one after another (R220) -/

theorem andThen_next_right {α : Type} (o : Host.Outcome α Fault Refusal) : andThen o .next = o := by
  cases o <;> rfl

/-- Two sequences agree when their second parts agree on what the first part answers. -/
theorem andThen_congr {α β : Type} {o : Host.Outcome α Fault Refusal} {f g : α → Host.Outcome β Fault Refusal}
    (h : ∀ a, o = .next a → f a = g a) : andThen o f = andThen o g := by
  cases o with
  | next a => exact h a rfl
  | fault r => rfl
  | refused r => rfl

/-- A refusal ends the sequence (R242). -/
theorem andThen_refuseSequence (s : State) (f : State → Result) : andThen (refuseSequence s) f = refuseSequence s := by
  unfold refuseSequence
  split <;> rfl

theorem runCommands_append (is js : List Instr) (s : State) :
    runCommands (is ++ js) s = andThen (runCommands is s) (runCommands js) := by
  induction is generalizing s with
  | nil => rfl
  | cons i is ih =>
    simp only [List.cons_append, runCommands, andThen_assoc]
    exact andThen_congr fun a _ => ih a

theorem runCommands_singleton (i : Instr) (s : State) : runCommands [i] s = exec i s :=
  andThen_next_right (exec i s)

/-- The block commands are the block loop of HASH (R213). -/
theorem runCommands_blockCommands (n : Nat) (s : State) : runCommands (blockCommands n) s = runBlocks n s := by
  induction n generalizing s with
  | zero => rfl
  | succ n ih =>
    refine andThen_congr fun s1 _ => andThen_congr fun s2 _ => ?_
    exact ih s2

theorem runCommands_streamCommands (n : Nat) (s : State) : runCommands (streamCommands n) s =
    andThen (execInit s) fun s1 => andThen (execPad s1) fun s2 => andThen (runBlocks n s2) execFinalize := by
  refine andThen_congr fun s1 _ => andThen_congr fun s2 _ => ?_
  rw [runCommands_append, runCommands_blockCommands]
  exact andThen_congr fun s3 _ => runCommands_singleton .finalize s3

/-- The commands of a message append it byte by byte to the buffer (R88, R212). -/
theorem runCommands_appends {s : State} {bs m : List Byte} (hp : s.PHASE = .Created)
    (hmsg : s.MSG = Memory.ofBytesAt 0 bs) (hlen : s.LEN = bs.length) (hmax : (bs ++ m).length ≤ s.MAXLEN.val) :
    runCommands (m.map .append) s = .next { s with MSG := Memory.ofBytesAt 0 (bs ++ m), LEN := (bs ++ m).length } := by
  induction m generalizing s bs with
  | nil => rw [List.append_nil, ← hmsg, ← hlen]; rfl
  | cons b m ih =>
    have hlength : (bs ++ b :: m).length = bs.length + (m.length + 1) := List.length_append
    have hassoc : bs ++ [b] ++ m = bs ++ b :: m := List.append_cons bs b m |>.symm
    rw [List.map_cons, runCommands, exec, execAppend_of_buffer b hp hmsg hlen (by omega), andThen_next, ← hassoc]
    exact ih hp rfl rfl (hassoc ▸ hmax)

/-- HASHMSG is HASH of a cleared state whose buffer holds the message (R88, R215). -/
theorem runCommands_hashmsg (s : State) {m : List Byte} (hmax : m.length ≤ s.MAXLEN.val) :
    runCommands (.reset :: (m.map .append ++ [.hash])) s =
      execHash { clear s with MSG := Memory.ofBytesAt 0 m, LEN := m.length } := by
  have hfill := runCommands_appends (s := clear s) (bs := []) rfl rfl rfl hmax
  rw [runCommands, exec, execReset_eq_next.2 rfl, andThen_next, runCommands_append, hfill, andThen_next,
    runCommands_singleton]
  rfl

/-- The number of blocks PAD leaves is that of the message (R141). -/
theorem NBLK_of_execPad {s t : State} (h : execPad s = .next t) : t.NBLK = some (blockCount s.LEN) := by
  obtain ⟨-, rfl⟩ := execPad_eq_next.1 h
  have := blockCount_eq s.LEN
  refine NBLK_eq_some.2 ⟨rfl, ?_⟩
  simp only [padTail_length]
  omega

/-- HASH and the streaming sequence part only in where the number of blocks comes from (R213, R220). -/
theorem exec_hash_eq_stream (s : State) : exec .hash s = runCommands (streamCommands (blockCount s.LEN)) s := by
  rw [runCommands_streamCommands]
  by_cases hp : s.PHASE = .Created
  · refine (if_pos hp).trans (andThen_congr fun s1 hinit => andThen_congr fun s2 hpad => ?_)
    obtain ⟨-, rfl⟩ := execInit_eq_next.1 hinit
    rw [NBLK_of_execPad hpad, readReg_some, andThen_next]
  · have hinit : execInit s = refuseSequence s := exec_out_of_sequence (i := .init) hp
    rw [hinit, andThen_refuseSequence]
    exact exec_out_of_sequence (i := .hash) hp

/-- HASH runs from every `Created` state that meets the invariant (R272). -/
theorem execHash_completes {s : State} (h : s.Inv) (hp : s.PHASE = .Created) : ∃ t, execHash s = .next t := by
  obtain ⟨hbuf, hlen, ⟨hpad, hblk⟩, -⟩ := (inv_iff_of_created hp).1 h
  obtain ⟨hmsg, hcount⟩ := bufferOk_bytes hbuf
  exact ⟨_, execHash_of_buffer hp hpad hblk hmsg hcount (hcount ▸ hlen.1 hpad)⟩

/-! ## The table of R219 -/

section table
variable {s : State} {i : Instr} {m : Mnemonic}

/-- A command in sequence completes, APPEND where there is room. -/
theorem exec_completes (h : s.Inv) (hseq : s.InSequence i.mnemonic)
    (hroom : i.mnemonic = .APPEND → s.LEN < s.MAXLEN.val) : ∃ t, exec i s = .next t := by
  cases i with
  | reset => exact ⟨_, rfl⟩
  | append imm8 => exact ⟨_, execAppend_eq_next.2 ⟨⟨hseq, hroom rfl⟩, rfl⟩⟩
  | init => exact ⟨_, execInit_eq_next.2 ⟨hseq, rfl⟩⟩
  | pad =>
    obtain ⟨-, hlen, -⟩ := h
    exact ⟨_, execPad_completes hseq.1 hseq.2 (hlen.1 hseq.2)⟩
  | expand =>
    obtain ⟨hmsg, hlen⟩ := bufferOk_bytes h.1
    obtain ⟨B, -, hexpand⟩ := execExpand_of_buffer hmsg hlen hseq
    exact ⟨_, hexpand⟩
  | compress =>
    obtain ⟨-, -, -, ⟨x, hH⟩, ⟨w, hW⟩, -⟩ := (inv_iff_of_expanded hseq).1 h
    exact ⟨_, execCompress_of_defined hseq hH hW⟩
  | finalize =>
    obtain ⟨hp, hpad, hblk⟩ := hseq
    obtain ⟨-, -, -, ⟨x, hH⟩, -⟩ := (inv_iff_of_compressed hp).1 h
    exact ⟨_, execFinalize_of_defined hp hpad hblk hH⟩
  | hash => exact execHash_completes h hseq

/-- The table refuses what is out of sequence, phase by phase. -/
theorem legality_eq_refuse_iff (h : s.Inv) (m : Mnemonic) : legality m s.column = .refuse ↔ ¬ s.InSequence m := by
  cases hp : s.PHASE with
  | Created => cases m <;> simp [State.column, State.InSequence, legality, hp]
  | Initialized =>
    obtain ⟨-, hlen, hblk, -⟩ := (inv_iff_of_initialized hp).1 h
    cases hpad : s.PADDED with
    | false => cases m <;> simp [State.column, State.InSequence, legality, hp, hpad]
    | true =>
      have hleft : s.BLK < s.LEN / 64 := by
        have := hlen.2 hpad
        omega
      cases m <;> simp [State.column, State.InSequence, legality, hp, hpad, hleft]
  | Expanded => cases m <;> simp [State.column, State.InSequence, legality, hp]
  | Compressed =>
    obtain ⟨-, -, ⟨hpad, -, hle⟩, -⟩ := (inv_iff_of_compressed hp).1 h
    by_cases hleft : s.BLK < s.LEN / 64
    · have hmore : s.blockLeft = true := blockLeft_iff.2 ⟨hpad, hleft⟩
      cases m <;> simp [State.column, State.InSequence, legality, hp, hpad, hmore, hleft, hleft.ne]
    · have hmore : ¬ s.blockLeft = true := fun hmore => hleft (blockLeft_iff.1 hmore).2
      have hlast : s.BLK = s.LEN / 64 := by omega
      cases m <;> simp [State.column, State.InSequence, legality, hp, hpad, hmore, hlast]
  | Finalized => cases m <;> simp [State.column, State.InSequence, legality, hp]

theorem column_eq_created_iff : s.column = .created ↔ s.PHASE = .Created := by
  cases hp : s.PHASE with
  | Created | Expanded | Finalized => simp [State.column, hp]
  | Initialized => cases hpad : s.PADDED <;> simp [State.column, hp, hpad]
  | Compressed => cases hleft : s.blockLeft <;> simp [State.column, hp, hleft]

/-- The one conditional cell of the table is APPEND's in `Created`. -/
theorem legality_eq_okIfRoom_iff {c : Column} : legality m c = .okIfRoom ↔ m = .APPEND ∧ c = .created := by
  cases m <;> cases c <;> simp [legality]

/-- A cell that lets the command through under a condition or under none is in sequence. -/
theorem inSequence_of_legality (h : s.Inv) (hcell : legality m s.column = .ok ∨ legality m s.column = .okIfRoom) :
    s.InSequence m := by
  by_contra hseq
  simp [(legality_eq_refuse_iff h m).2 hseq] at hcell

/-- APPEND has no unconditional cell. -/
theorem ne_append_of_legality_ok {c : Column} (h : legality m c = .ok) : m ≠ .APPEND := by
  rintro rfl
  cases c <;> cases h

end table

/-! ## The bytes of generic elements (R216) -/

theorem elementByte_unsigned {u : Nat} (h : u ≤ 255) : elementByte (.unsigned u) = some (BitVec.ofNat 8 u) := by
  simp [elementByte, Element.wellFormed, h]

theorem elementByte_signed {s : Int} (hmin : -128 ≤ s) (hmax : s ≤ 127) :
    elementByte (.signed s) = some (BitVec.ofNat 8 (s % 256).toNat) := by
  simp [elementByte, Element.wellFormed, hmin, hmax]

theorem elementByte_character {c : Nat} (h : c ≤ 255) : elementByte (.character c) = some (BitVec.ofNat 8 c) := by
  simp [elementByte, Element.wellFormed, h]

theorem toNat_byte {n : Nat} (h : n ≤ 255) : (BitVec.ofNat 8 n).toNat = n := by
  rw [BitVec.toNat_ofNat, Nat.mod_eq_of_lt (by omega)]

/-! ## The obligations -/

/-- Settles O31: what a step keeps is the invariant and the meaning together, command by command, HASH because the
commands inside it do. -/
theorem stepKeepsTheMeaning : Obligations.StepKeepsTheMeaning := by
  intro s t hinv hmeaning h
  obtain ⟨-, ht⟩ := step_keeps_sound s t ⟨hinv, hmeaning⟩ h
  exact ht

/-- Settles O10: one byte written at `LEN`, read there and elsewhere; the two refusals by the order of the checks. -/
theorem appendAddsOneByte : Obligations.AppendAddsOneByte := by
  refine ⟨fun imm8 => toNat_encode (.append imm8), fun s imm8 => ⟨fun hp hroom => ?_, execAppend_of_full imm8,
    exec_refused (i := .append imm8)⟩⟩
  refine ⟨_, execAppend_eq_next.2 ⟨⟨hp, hroom⟩, rfl⟩, rfl, ?_, fun a ha => ?_⟩
  · exact (read_write ..).trans (if_pos rfl)
  · exact (read_write ..).trans (if_neg ha)

/-- Settles O17: in `Created` by HASH on a buffer that holds the message, elsewhere by its refusal. -/
theorem hashComputesTheHashFunction : Obligations.HashComputesTheHashFunction :=
  ⟨rfl, fun _ => ⟨fun _ => execHash_of_buffer, exec_refused (i := .hash)⟩⟩

/-- Settles O18: in `Created` both run the same commands, with the number of blocks PAD leaves; elsewhere both are
refused by their first check. -/
theorem hashEqualsTheStreamingSequence : Obligations.HashEqualsTheStreamingSequence := exec_hash_eq_stream

/-- Settles O19: RESET empties the buffer, the APPENDs fill it with the message, HASH hashes what it holds. -/
theorem hashmsgReturnsTheHash : Obligations.HashmsgReturnsTheHash := fun s _ hmax =>
  ⟨_, _, rfl, rfl, (runCommands_hashmsg s hmax).trans (execHash_of_buffer rfl rfl rfl rfl rfl hmax), rfl, rfl, rfl⟩

/-- Settles O26: the table refuses exactly what is out of sequence, and under the invariant the rest completes. -/
theorem legalityTableDecidesEveryCommand : Obligations.LegalityTableDecidesEveryCommand := by
  intro s i h
  refine ⟨fun hcell => ?_, fun hcell => ?_, fun hcell hpolicy => ?_⟩
  · have hseq := inSequence_of_legality h (.inl hcell)
    exact exec_completes h hseq fun happend => absurd happend (ne_append_of_legality_ok hcell)
  · have hseq := inSequence_of_legality h (.inr hcell)
    obtain ⟨hname, hcol⟩ := legality_eq_okIfRoom_iff.1 hcell
    refine ⟨fun hroom => exec_completes h hseq fun _ => hroom, fun hfull => ?_⟩
    obtain ⟨imm8, rfl⟩ : ∃ imm8, i = .append imm8 := by cases i <;> simp [Instr.mnemonic] at hname ⊢
    exact execAppend_of_full imm8 (column_eq_created_iff.1 hcol) (Nat.not_lt.1 hfull)
  · exact exec_refused hpolicy ((legality_eq_refuse_iff h _).1 hcell)

/-- Settles O27: a command that completes was in sequence, which is its row of the table; what it leaves is read off its
next state. -/
theorem transitionsFollowTheStateMachine : Obligations.TransitionsFollowTheStateMachine := by
  intro s t i h
  refine ⟨phase_of_exec h, ?_⟩
  have hseq := inSequence_of_exec h
  cases i with
  | reset => exact .inl rfl
  | append imm8 =>
    obtain ⟨⟨-, hroom⟩, -⟩ := execAppend_eq_next.1 h
    exact .inr (.inl ⟨hseq, .inl ⟨imm8, rfl, hroom⟩⟩)
  | init => exact .inr (.inl ⟨hseq, .inr (.inl rfl)⟩)
  | pad =>
    obtain ⟨-, rfl⟩ := execPad_eq_next.1 h
    exact .inr (.inr (.inl ⟨hseq.1, .inl ⟨rfl, hseq.2, rfl⟩⟩))
  | expand =>
    obtain ⟨hpad, hblk, hp | hp⟩ := hseq
    · exact .inr (.inr (.inl ⟨hp, .inr ⟨rfl, hpad, hblk⟩⟩))
    · exact .inr (.inr (.inr (.inr ⟨hp, hpad, .inl ⟨rfl, hblk⟩⟩)))
  | compress =>
    obtain ⟨-, x, w, -, -, rfl⟩ := execCompress_eq_next.1 h
    exact .inr (.inr (.inr (.inl ⟨hseq, rfl, rfl⟩)))
  | finalize =>
    obtain ⟨hp, hpad, hblk⟩ := hseq
    exact .inr (.inr (.inr (.inr ⟨hp, hpad, .inr ⟨rfl, hblk⟩⟩)))
  | hash => exact .inr (.inl ⟨hseq, .inr (.inr rfl)⟩)

/-- Settles O34: the streaming sequence has the outcome of HASH, which completes. -/
theorem streamingSequenceIsSafe : Obligations.StreamingSequenceIsSafe := by
  intro s h hp
  obtain ⟨t, ht⟩ := execHash_completes h hp
  exact ⟨t, (exec_hash_eq_stream s).symm.trans ht⟩

/-- Settles O8: RESET answers the cleared state, whatever it starts from. -/
theorem resetClearsEverything : Obligations.ResetClearsEverything :=
  ⟨rfl, fun s => ⟨clear s, execReset_eq_next.2 rfl, rfl, execReset_eq_next.2 rfl⟩⟩

/-- Settles O7: hardware reset answers the cleared state, which has every field at its reset value. -/
theorem hardwareResetGivesTheResetState : Obligations.HardwareResetGivesTheResetState := hardReset_eq

/-- Settles O9: both answer the cleared state. -/
theorem resetCommandEqualsHardwareReset : Obligations.ResetCommandEqualsHardwareReset :=
  fun s => ⟨(hardReset_eq s).trans (execReset_eq_next.2 rfl).symm, execReset_eq_next.2 rfl⟩

/-- Settles O20: in `Finalized` every command but RESET is out of sequence, and the policy names the refusal. -/
theorem automaticPolicyIsRefused : Obligations.AutomaticPolicyIsRefused := fun _ _ hp hpolicy hi =>
  (exec_out_of_sequence (not_inSequence_of_finalized hp hi)).trans (refuseSequence_automatic hp hpolicy)

/-- Settles O32: the reset state is a cleared state. -/
theorem resetHasTheMeaning : Obligations.ResetHasTheMeaning := (clear_sound State.reset).2

/-- Settles O60: a number below 256 is the byte of that value; the remainder of a signed element is its two's complement
pattern. -/
theorem elementsConvertToBytes : Obligations.ElementsConvertToBytes := by
  refine ⟨fun u hu => ⟨_, elementByte_unsigned hu, toNat_byte hu⟩, fun s hmin hmax => ?_,
    fun c hc => ⟨_, elementByte_character hc, toNat_byte hc⟩⟩
  have hbyte : (BitVec.ofNat 8 (s % 256).toNat).toNat = (s % 256).toNat := toNat_byte (by omega)
  refine ⟨_, elementByte_signed hmin hmax, by omega, ?_⟩
  rw [BitVec.toInt_eq_toNat_cond]
  split <;> omega

/-- Settles O4, by evaluation of the decoder on the seventeen words. -/
theorem printedWordsDecode : Obligations.PrintedWordsDecode := by
  unfold Obligations.PrintedWordsDecode
  decide

end Sys2Proof.Machine
